-- ==== Sys2Proof/Word.lean ====
section
/-! DEFINITION. The words of the SDE: bytes, 16-bit halves, the 96-bit command word (rules R11, R56). -/

namespace Sys2Proof

/-- An 8-bit word: a panel command or a data byte (R46). -/
abbrev Byte := BitVec 8

/-- A 16-bit word: an operand field, a window bound, a colour (R46, R56). -/
abbrev Half := BitVec 16

/-- A host command word, `CMD_WIDTH` = 96 bits (R56, R57). -/
abbrev CmdWord := BitVec 96

end Sys2Proof
end

