-- ==== Sys2Proof/Config.lean ====
section
/-! DEFINITION. The parameters of rule R5: constants the source fixes, the configuration a model takes as an argument, and the free values. -/

namespace Sys2Proof

/-- The comparison of the line engine, parameter `LINE_CMP` (R96, D20). -/
inductive LineCmp
  | ge
  | gt
  deriving DecidableEq, Repr, Inhabited

/-- What the line engine takes for a negative `dy`, parameter `LINE_NEG_DY` (R96, D21). -/
inductive LineNegDy
  | horizontalMag
  | vertical
  | negHorizontalMag
  deriving DecidableEq, Repr, Inhabited

/-- A parameter byte of the initialization table: a literal, or the place of the orientation byte (R83). -/
inductive ParamByte
  | lit (b : Byte)
  | orient
  deriving DecidableEq, Repr, Inhabited

/-- An entry of `INIT_TABLE`: a panel command, its parameter bytes, a wait in milliseconds (R83). -/
structure InitEntry where
  cmd    : Byte
  params : List ParamByte
  waitMs : Nat
  deriving DecidableEq, Repr, Inhabited

/-- The configuration of R5, without the values the source fixes. No command changes it (R27). -/
structure Config where
  cmdCaset     : Byte
  cmdRaset     : Byte
  cmdRamwr     : Byte
  cmdMadctl    : Byte
  cmdColmod    : Byte
  colmodRgb565 : Byte
  cmdSlpout    : Byte
  cmdDispon    : Byte
  /-- `MADCTL_PARAM[0..3]` (R85), an OPEN parameter. -/
  madctl0      : Byte
  madctl1      : Byte
  madctl2      : Byte
  madctl3      : Byte
  /-- `INIT_TABLE` (R83), an OPEN parameter under the constraints of R84 (`Config.wf`). -/
  initTable    : List InitEntry
  lineCmp      : LineCmp
  lineNegDy    : LineNegDy
  /-- The time base of the wait timer (R121); positive, and no rule depends on it. -/
  ticksPerMs   : Nat
  deriving DecidableEq, Repr

namespace Config

/-! ### Values fixed by the source or by the spec (R5) -/

/-- `PANEL_W` (R5). -/
abbrev panelW : Nat := 240
/-- `PANEL_H` (R5). -/
abbrev panelH : Nat := 240
/-- `T_RST_LOW_MS`, a minimum (R5, R79). -/
abbrev tRstLowMs : Nat := 20
/-- `T_RST_RECOVER_MS`, a minimum (R5, R79). -/
abbrev tRstRecoverMs : Nat := 120
/-- `T_SLPOUT_MS`, a minimum (R5, R84). -/
abbrev tSlpoutMs : Nat := 120
/-- `T_DISPON_MS`, a minimum (R5, R84). -/
abbrev tDisponMs : Nat := 20
/-- `SCLK_ACTIVE` = 1 (R5, R15, D10). -/
abbrev sclkActive : Bool := true
/-- The inactive level of SCLK, 0 (R15). -/
abbrev sclkInactive : Bool := false

/-! ### The OPEN parameters of the machine that starts at `State.reset` (log entry 2) -/

/-- The parts of an `INIT_TABLE` that R84 leaves open: the plain entries before, between and after the two entries
it names, and which of the two comes first. -/
structure InitParts where
  before      : List (Byte × List Byte)
  between     : List (Byte × List Byte)
  after       : List (Byte × List Byte)
  colmodFirst : Bool
  deriving DecidableEq, Repr, Inhabited

/-- The open parts of the initialization table (R83, N5): nothing is known of them. -/
opaque openInit : InitParts
/-- `MADCTL_PARAM[0]` (R85, N4). -/
opaque openMadctl0 : Byte
/-- `MADCTL_PARAM[1]` (R85, N4). -/
opaque openMadctl1 : Byte
/-- `MADCTL_PARAM[2]` (R85, N4). -/
opaque openMadctl2 : Byte
/-- `MADCTL_PARAM[3]` (R85, N4). -/
opaque openMadctl3 : Byte
/-- One less than `TICKS_PER_MS` (R121): the time base is positive and otherwise open. -/
opaque openTicks : Nat

/-- A plain entry: literal parameters, no wait (R84 (d)). -/
def plainEntry (e : Byte × List Byte) : InitEntry :=
  { cmd := e.1, params := e.2.map ParamByte.lit, waitMs := 0 }

/-- The orientation entry (R84 (a)). -/
def madctlEntry (cfg : Config) : InitEntry := { cmd := cfg.cmdMadctl, params := [.orient], waitMs := 0 }

/-- The pixel-format entry (R84 (b)). -/
def colmodEntry (cfg : Config) : InitEntry :=
  { cmd := cfg.cmdColmod, params := [.lit cfg.colmodRgb565], waitMs := 0 }

/-- The last two entries of every table (R84 (c)). -/
def tailEntries (cfg : Config) : List InitEntry :=
  [{ cmd := cfg.cmdSlpout, params := [], waitMs := tSlpoutMs },
   { cmd := cfg.cmdDispon, params := [], waitMs := tDisponMs }]

/-- The table that the open parts make: every table R84 admits is of this form, and every one of this form is
admitted by R84 (log entry 2). -/
def buildTable (cfg : Config) (p : InitParts) : List InitEntry :=
  p.before.map plainEntry
    ++ (if p.colmodFirst then cfg.colmodEntry else cfg.madctlEntry) :: p.between.map plainEntry
    ++ (if p.colmodFirst then cfg.madctlEntry else cfg.colmodEntry) :: p.after.map plainEntry
    ++ cfg.tailEntries

/-- The parameters with a default at that default (R5; log entry 3), an empty table, and the OPEN bytes opaque. -/
def defaults : Config :=
  { cmdCaset := 0x2A, cmdRaset := 0x2B, cmdRamwr := 0x2C, cmdMadctl := 0x36, cmdColmod := 0x3A,
    colmodRgb565 := 0x05, cmdSlpout := 0x11, cmdDispon := 0x29,
    madctl0 := openMadctl0, madctl1 := openMadctl1, madctl2 := openMadctl2, madctl3 := openMadctl3,
    initTable := [], lineCmp := .ge, lineNegDy := .horizontalMag, ticksPerMs := openTicks + 1 }

/-- The configuration of the machine that starts at `State.reset`. -/
def reset : Config := { defaults with initTable := defaults.buildTable openInit }

/-! ### Free values (log entry 14): nothing is known of any of them -/

/-- A free window start column (U3, U4, U10). -/
opaque freeXs : Nat → Half
/-- A free window end column (U3, U4, U10). -/
opaque freeXe : Nat → Half
/-- A free window start row (U3, U4, U10). -/
opaque freeYs : Nat → Half
/-- A free window end row (U3, U4, U10). -/
opaque freeYe : Nat → Half
/-- A free write pointer column (U4, U10). -/
opaque freePx : Nat → Nat
/-- A free write pointer row (U4, U10). -/
opaque freePy : Nat → Nat
/-- The free content of `cur` after a block reset (U8). -/
opaque freeCur : Nat → CmdWord

end Config

end Sys2Proof
end

