-- ==== Sys2Proof/Syntax.lean ====
section
/-! DEFINITION. The command set (rule R59), one constructor per row of the opcode table, and the assembly statements of rules R64, R65. -/

namespace Sys2Proof

/-- The thirteen opcodes, in the order of R59. -/
inductive Op
  | nop
  | sendCmd8
  | sendData8
  | sendData16
  | panelReset
  | delay
  | init
  | setWindow
  | drawPoint
  | drawLine
  | drawRect
  | drawCircle
  | clear
  deriving DecidableEq, Repr

/-- A legal command with its operand fields, in the order and the widths of R58 (u8, u16, u2; an s16 operand is the
16-bit field, which its rule reads with `sext16`). Every value of this type is a legal command (R63). -/
inductive Instr
  | nop
  | sendCmd8 (v : Byte)
  | sendData8 (v : Byte)
  | sendData16 (v : Half)
  | panelReset
  | delay (ms : Half)
  | init (orient : BitVec 2)
  | setWindow (xs ys xe ye : Half)
  | drawPoint (x y color : Half)
  | drawLine (x1 y1 x2 y2 color : Half)
  | drawRect (x1 y1 x2 y2 color : Half)
  | drawCircle (x0 y0 r color : Half)
  | clear (color : Half)
  deriving DecidableEq, Repr

/-- The opcode of a command. -/
def Instr.op : Instr → Op
  | .nop => .nop
  | .sendCmd8 _ => .sendCmd8
  | .sendData8 _ => .sendData8
  | .sendData16 _ => .sendData16
  | .panelReset => .panelReset
  | .delay _ => .delay
  | .init _ => .init
  | .setWindow _ _ _ _ => .setWindow
  | .drawPoint _ _ _ => .drawPoint
  | .drawLine _ _ _ _ _ => .drawLine
  | .drawRect _ _ _ _ _ => .drawRect
  | .drawCircle _ _ _ _ => .drawCircle
  | .clear _ => .clear

/-- The reading of an operand field, R58. -/
inductive OperandKind
  | u8
  | u2
  | u16
  | s16
  deriving DecidableEq, Repr

/-- One assembly statement of R64: a mnemonic and its operands as the numbers written. -/
structure AsmStmt where
  mnemonic : String
  operands : List Int
  deriving DecidableEq, Repr

/-- Why an assembler refuses a line (R64). -/
inductive AsmError
  /-- The mnemonic is neither a row of R59 nor a pseudo-instruction of R65. -/
  | unknownMnemonic
  /-- A wrong operand count. -/
  | operandCount
  /-- An operand outside its field's range. -/
  | operandRange
  /-- Text that is no number of R64. -/
  | notANumber
  deriving DecidableEq, Repr

end Sys2Proof
end

