-- ==== Sys2Proof/WellFormed.lean ====
section
/-! DEFINITION. What is well formed: the assembly statements of rules R64 and R65, and the configurations of rule R84.
A value of `Instr` is well formed by the widths of its fields (R58, R63); which command words are legal is `decode`'s
answer (R60 to R62, Decode.lean). -/

namespace Sys2Proof

/-- An operand lies in its field's range (R64: u8 0..255; u2 0..3; u16 0..65535; s16 −32768..32767). -/
def OperandKind.inRange : OperandKind → Int → Bool
  | .u8, v => decide (0 ≤ v ∧ v ≤ 255)
  | .u2, v => decide (0 ≤ v ∧ v ≤ 3)
  | .u16, v => decide (0 ≤ v ∧ v ≤ 65535)
  | .s16, v => decide (-32768 ≤ v ∧ v ≤ 32767)

/-- The operand columns of R58, in the order A, B, C, D, E. -/
def Op.operandKinds : Op → List OperandKind
  | .nop => []
  | .sendCmd8 => [.u8]
  | .sendData8 => [.u8]
  | .sendData16 => [.u16]
  | .panelReset => []
  | .delay => [.u16]
  | .init => [.u2]
  | .setWindow => [.u16, .u16, .u16, .u16]
  | .drawPoint => [.s16, .s16, .u16]
  | .drawLine => [.s16, .s16, .s16, .s16, .u16]
  | .drawRect => [.s16, .s16, .s16, .s16, .u16]
  | .drawCircle => [.s16, .s16, .s16, .u16]
  | .clear => [.u16]

/-- The mnemonics of R59, letter for letter. -/
def Op.mnemonic : Op → String
  | .nop => "NOP"
  | .sendCmd8 => "SEND_CMD8"
  | .sendData8 => "SEND_DATA8"
  | .sendData16 => "SEND_DATA16"
  | .panelReset => "PANEL_RESET"
  | .delay => "DELAY"
  | .init => "INIT"
  | .setWindow => "SET_WINDOW"
  | .drawPoint => "DRAW_POINT"
  | .drawLine => "DRAW_LINE"
  | .drawRect => "DRAW_RECT"
  | .drawCircle => "DRAW_CIRCLE"
  | .clear => "CLEAR"

/-- Every opcode, in the order of R59. -/
def Op.all : List Op :=
  [.nop, .sendCmd8, .sendData8, .sendData16, .panelReset, .delay, .init, .setWindow, .drawPoint, .drawLine, .drawRect,
   .drawCircle, .clear]

/-- The opcode a mnemonic names. -/
def Op.ofMnemonic (m : String) : Option Op := Op.all.find? (fun o => o.mnemonic == m)

/-- The operand kinds a mnemonic takes when `n` operands are written; the pseudo-instructions are those of R65
(`PANEL_CMD` takes a command byte and any number of parameter bytes). -/
def asmKinds (m : String) (n : Nat) : Option (List OperandKind) :=
  match Op.ofMnemonic m with
  | some o => some o.operandKinds
  | none =>
    if m = "PANEL_CMD" then some (List.replicate (max n 1) .u8)
    else if m = "PIXEL" then some [.u16]
    else if m = "HLINE" then some [.s16, .s16, .s16, .u16]
    else if m = "VLINE" then some [.s16, .s16, .s16, .u16]
    else none

/-- What is wrong with an assembly statement, if anything (R64). -/
def AsmStmt.check (a : AsmStmt) : Option AsmError :=
  match asmKinds a.mnemonic a.operands.length with
  | none => some .unknownMnemonic
  | some kinds =>
    if kinds.length ≠ a.operands.length then some .operandCount
    else if (kinds.zip a.operands).all (fun ko => ko.1.inRange ko.2) then none
    else some .operandRange

/-- A well-formed assembly statement. -/
def AsmStmt.wf (a : AsmStmt) : Bool := a.check.isNone

namespace Config

/-- The entry holds the orientation placeholder. -/
def entryHasOrient (e : InitEntry) : Bool := e.params.contains .orient

/-- The table without its last two entries. -/
def tableHead (t : List InitEntry) : List InitEntry := t.take (t.length - 2)

/-- R84 (a): exactly one entry contains `Orient`, and it is (`CMD_MADCTL`, [`Orient`], 0). -/
def orientOk (cfg : Config) : Bool := decide (cfg.initTable.filter entryHasOrient = [cfg.madctlEntry])

/-- R84 (b): at least one entry is (`CMD_COLMOD`, [Lit(`COLMOD_RGB565`)], 0). -/
def colmodOk (cfg : Config) : Bool := cfg.initTable.contains cfg.colmodEntry

/-- R84 (c): the last two entries are sleep-out and display-on with their waits. -/
def tailOk (cfg : Config) : Bool := decide (cfg.initTable.drop (cfg.initTable.length - 2) = cfg.tailEntries)

/-- R84 (d): every other entry has no wait. -/
def waitsOk (cfg : Config) : Bool := (tableHead cfg.initTable).all (fun e => e.waitMs == 0)

/-- A configuration the spec admits: its table meets R84 and its time base is positive (R121). -/
def wf (cfg : Config) : Bool :=
  cfg.orientOk && cfg.colmodOk && cfg.tailOk && cfg.waitsOk && decide (0 < cfg.ticksPerMs)

end Config

end Sys2Proof
end

