-- ==== Sys2Proof/Decode.lean ====
section
/-! DEFINITION. Decoding a command word (rules R56 to R62, R67), total on every 96-bit word and refusing by name, and encoding a command (rule R68). -/

namespace Sys2Proof

/-! ### The fields of a command word, R56 -/

/-- `cmd.OP = cmd[7:0]`. -/
def fieldOp (w : CmdWord) : Byte := w.extractLsb' 0 8
/-- `cmd.A = cmd[23:8]`. -/
def fieldA (w : CmdWord) : Half := w.extractLsb' 8 16
/-- `cmd.B = cmd[39:24]`. -/
def fieldB (w : CmdWord) : Half := w.extractLsb' 24 16
/-- `cmd.C = cmd[55:40]`. -/
def fieldC (w : CmdWord) : Half := w.extractLsb' 40 16
/-- `cmd.D = cmd[71:56]`. -/
def fieldD (w : CmdWord) : Half := w.extractLsb' 56 16
/-- `cmd.E = cmd[87:72]`. -/
def fieldE (w : CmdWord) : Half := w.extractLsb' 72 16
/-- `cmd.RSV = cmd[95:88]`. -/
def fieldRsv (w : CmdWord) : Byte := w.extractLsb' 88 8

/-! ### The opcode table, R59 -/

/-- One row of the opcode table: a word is the row's command when `word & mask = value`. -/
structure Row where
  op    : Op
  value : CmdWord
  mask  : CmdWord
  deriving DecidableEq, Repr

/-- The rows of `opcode_table.json`; each mask covers OP and every must-be-zero bit of R60. -/
def rows : List Row :=
  [⟨.nop, 0x000000000000000000000000#96, 0xFFFFFFFFFFFFFFFFFFFFFFFF#96⟩,
   ⟨.sendCmd8, 0x000000000000000000000001#96, 0xFFFFFFFFFFFFFFFFFFFF00FF#96⟩,
   ⟨.sendData8, 0x000000000000000000000002#96, 0xFFFFFFFFFFFFFFFFFFFF00FF#96⟩,
   ⟨.sendData16, 0x000000000000000000000003#96, 0xFFFFFFFFFFFFFFFFFF0000FF#96⟩,
   ⟨.panelReset, 0x000000000000000000000004#96, 0xFFFFFFFFFFFFFFFFFFFFFFFF#96⟩,
   ⟨.delay, 0x000000000000000000000005#96, 0xFFFFFFFFFFFFFFFFFF0000FF#96⟩,
   ⟨.init, 0x000000000000000000000006#96, 0xFFFFFFFFFFFFFFFFFFFFFCFF#96⟩]
  ++
  [⟨.setWindow, 0x000000000000000000000007#96, 0xFFFFFF0000000000000000FF#96⟩,
   ⟨.drawPoint, 0x000000000000000000000008#96, 0xFFFFFFFFFF000000000000FF#96⟩,
   ⟨.drawLine, 0x000000000000000000000009#96, 0xFF00000000000000000000FF#96⟩,
   ⟨.drawRect, 0x00000000000000000000000A#96, 0xFF00000000000000000000FF#96⟩,
   ⟨.drawCircle, 0x00000000000000000000000B#96, 0xFFFFFF0000000000000000FF#96⟩,
   ⟨.clear, 0x00000000000000000000000C#96, 0xFFFFFFFFFFFFFFFFFF0000FF#96⟩]

/-- The row whose opcode a word carries, if there is one (R61: opcodes 0x0D to 0xFF are reserved). -/
def rowOf (op : Byte) : Option Row := rows.find? (fun r => fieldOp r.value == op)

/-! ### Decode, R67 -/

/-- Why a word is illegal (R114). -/
inductive Illegal
  /-- Code 1: the opcode is one of 0x0D..0xFF. -/
  | reservedOpcode (op : Byte)
  /-- Code 2: must-be-zero bits of the row are set; `bits` are those bits. -/
  | nonzeroReservedBits (bits : CmdWord)
  deriving DecidableEq, Repr

/-- The cause code of R114. -/
def Illegal.code : Illegal → Nat
  | .reservedOpcode _ => 1
  | .nonzeroReservedBits _ => 2

/-- The answer of the decoder. -/
inductive Decoded
  | legal (i : Instr)
  | illegal (why : Illegal)
  deriving DecidableEq, Repr

/-- The operands of a word whose opcode is known, read as R58 says. -/
def readOperands (op : Op) (w : CmdWord) : Instr :=
  match op with
  | .nop => .nop
  | .sendCmd8 => .sendCmd8 ((fieldA w).extractLsb' 0 8)
  | .sendData8 => .sendData8 ((fieldA w).extractLsb' 0 8)
  | .sendData16 => .sendData16 (fieldA w)
  | .panelReset => .panelReset
  | .delay => .delay (fieldA w)
  | .init => .init ((fieldA w).extractLsb' 0 2)
  | .setWindow => .setWindow (fieldA w) (fieldB w) (fieldC w) (fieldD w)
  | .drawPoint => .drawPoint (fieldA w) (fieldB w) (fieldC w)
  | .drawLine => .drawLine (fieldA w) (fieldB w) (fieldC w) (fieldD w) (fieldE w)
  | .drawRect => .drawRect (fieldA w) (fieldB w) (fieldC w) (fieldD w) (fieldE w)
  | .drawCircle => .drawCircle (fieldA w) (fieldB w) (fieldC w) (fieldD w)
  | .clear => .clear (fieldA w)

/-- `Decode(w)` of R67: the opcode first, then the must-be-zero bits. -/
def decode (w : CmdWord) : Decoded :=
  match rowOf (fieldOp w) with
  | none => .illegal (.reservedOpcode (fieldOp w))
  | some r =>
    if w &&& r.mask = r.value then .legal (readOperands r.op w)
    else .illegal (.nonzeroReservedBits (w &&& r.mask &&& ~~~(0xFF#96)))

/-- The instruction the decoder reads from a word of `nbits` bits (every higher bit 0), none where it refuses. -/
def decodeTableWord (nbits w : Nat) : Option Instr :=
  match decode (BitVec.ofNat 96 (w % 2 ^ nbits)) with
  | .legal i => some i
  | .illegal _ => none

/-! ### Encode, R68 -/

/-- `op | a·2^8 | b·2^24 | c·2^40 | d·2^56 | e·2^72`. -/
def encodeFields (op : Byte) (a b c d e : Half) : CmdWord :=
  op.setWidth 96 ||| (a.setWidth 96 <<< 8) ||| (b.setWidth 96 <<< 24) ||| (c.setWidth 96 <<< 40)
    ||| (d.setWidth 96 <<< 56) ||| (e.setWidth 96 <<< 72)

/-- The opcode numbers of R59. -/
def Op.number : Op → Byte
  | .nop => 0x00
  | .sendCmd8 => 0x01
  | .sendData8 => 0x02
  | .sendData16 => 0x03
  | .panelReset => 0x04
  | .delay => 0x05
  | .init => 0x06
  | .setWindow => 0x07
  | .drawPoint => 0x08
  | .drawLine => 0x09
  | .drawRect => 0x0A
  | .drawCircle => 0x0B
  | .clear => 0x0C

/-- The word of a command (R68): operands in the columns A to E of R58, unused fields 0. -/
def encode (i : Instr) : CmdWord :=
  match i with
  | .nop => encodeFields i.op.number 0 0 0 0 0
  | .sendCmd8 v => encodeFields i.op.number (v.setWidth 16) 0 0 0 0
  | .sendData8 v => encodeFields i.op.number (v.setWidth 16) 0 0 0 0
  | .sendData16 v => encodeFields i.op.number v 0 0 0 0
  | .panelReset => encodeFields i.op.number 0 0 0 0 0
  | .delay ms => encodeFields i.op.number ms 0 0 0 0
  | .init orient => encodeFields i.op.number (orient.setWidth 16) 0 0 0 0
  | .setWindow xs ys xe ye => encodeFields i.op.number xs ys xe ye 0
  | .drawPoint x y color => encodeFields i.op.number x y color 0 0
  | .drawLine x1 y1 x2 y2 color => encodeFields i.op.number x1 y1 x2 y2 color
  | .drawRect x1 y1 x2 y2 color => encodeFields i.op.number x1 y1 x2 y2 color
  | .drawCircle x0 y0 r color => encodeFields i.op.number x0 y0 r color 0
  | .clear color => encodeFields i.op.number color 0 0 0 0

end Sys2Proof
end

