-- ==== Sys2Proof/Machine/State.lean ====
section
/-! DEFINITION. The state of the SDE (rules R14, R20, R24, R28), its input ports (R13), the panel's receiver reference model (R32, R36 to R38), and the reasons a step or a claim can stop. -/

namespace Sys2Proof.Machine

/-- The five panel-side outputs (R9, R13). -/
inductive Pin
  | sclk
  | sda
  | csN
  | dc
  | rstN
  deriving DecidableEq, Repr

/-- An event of a trace (R7): a pin write, or a wait of at least so many milliseconds. -/
inductive Event
  | w (p : Pin) (l : Bool)
  | wait (ms : Nat)
  deriving DecidableEq, Repr

/-- The five pin output registers (R14); `true` is level 1. -/
structure Pins where
  sclk : Bool
  sda  : Bool
  csN  : Bool
  dc   : Bool
  rstN : Bool
  deriving DecidableEq, Repr

/-- What the host drives on the ports (R13): `RST_BLK`, and a word offered with `CMD_VALID` = 1 or none. -/
structure HostIn where
  rstBlk : Bool
  offer  : Option CmdWord
  deriving DecidableEq, Repr

/-- A bit the panel sampled, with the DC level sampled with it (R36). -/
structure Sample where
  dc  : Bool
  sda : Bool
  deriving DecidableEq, Repr

/-- What a change of pin levels means to the panel's sampler (R36). -/
inductive WireEvent
  /-- CS_N fell: a frame begins. -/
  | start
  /-- SCLK became active while CS_N = 0: a bit is sampled. -/
  | bit (b : Sample)
  /-- CS_N rose: the frame is complete. -/
  | stop
  deriving DecidableEq, Repr

/-- A byte of the panel's byte stream, with its DC level (R37): a command byte (DC = 0) or a data byte (DC = 1). -/
inductive WireByte
  | cmd (b : Byte)
  | data (b : Byte)
  deriving DecidableEq, Repr

/-- The receiver's mode (R38). `col` and `row` hold the parameter bytes received so far, so `k` is their number. -/
inductive Mode
  | idle
  | col (got : List Byte)
  | row (got : List Byte)
  | write (hi : Option Byte)
  | other
  /-- The mode after power-on, after a panel reset and after a cut transmission (R38, U4, U10). -/
  | unspecified
  deriving DecidableEq, Repr

/-- How far the panel has been brought up: the model's record of the premises of R87, R129, R131 and R133 (log entry 10). -/
inductive Stage
  /-- Not known to be addressable (R128, R131, U5). -/
  | off
  /-- RST_N is 0 (R18, R79). -/
  | inReset
  /-- The reset pulse was given. -/
  | released
  /-- Sleep-out was sent. -/
  | awake
  /-- Display-on was sent after sleep-out; the panel is addressable once no wait is owed (R87). -/
  | ready
  deriving DecidableEq, Repr

/-- The bytes of the frame memory that hold a value, by address, strictly rising (R32; log entry 8). -/
abbrev Memory := List Host.Cell

/-- The panel as the receiver reference model sees it (R32, R36 to R38). -/
structure Panel where
  xs : Half
  ys : Half
  xe : Half
  ye : Half
  px : Nat
  py : Nat
  mode : Mode
  /-- The cells that hold a known value. -/
  mem : Memory
  /-- What an unlisted cell is: `false` unwritten (R32), `true` unknown (R43, U1, U2, U4, U5, U12). -/
  memUnknown : Bool
  /-- The bits sampled since CS_N fell, oldest first (R36). -/
  frame : List Sample
  stage : Stage
  /-- Milliseconds of wait still owed before the next frame (R79, R133). -/
  owed : Nat
  deriving DecidableEq, Repr

/-- The whole machine. -/
structure State where
  /-- The configuration (R5), not architectural state (R27): the model's argument, which no step changes (log entry 1). -/
  cfg : Config
  /-- The pin output registers (R14). -/
  pins : Pins
  /-- `STATUS.ILLEGAL` (R20). `STATUS.BUSY` is computed from `pending`. -/
  illegal : Bool
  /-- The accepted command word (R24). -/
  cur : CmdWord
  /-- The events of `Trace(cur)` not yet performed (R24). -/
  pending : List Event
  /-- What the host will drive on the ports, oldest first; nothing when empty (R12, R13; log entry 6). -/
  host : List HostIn
  /-- The panel (R36 to R44). -/
  panel : Panel
  /-- The index of the next free value: the model's own (log entry 14). -/
  free : Nat
  deriving DecidableEq, Repr

/-- The reasons a claim that reads the frame memory faults. No step of the machine raises one (R115): they are
raised by `Panel.readCell`, the claim-side read. All are safe: a claim that needs such a value cannot be proved. -/
inductive Fault
  /-- The coordinates address no cell (R50). Raised by `Panel.readCell`; safe. -/
  | noSuchCell
  /-- No pixel has reached the cell (R32, U10). Raised by `Panel.readCell`; safe. -/
  | unwrittenCell
  /-- The frame memory is unknown (U1, U2, U4, U5, U12) and the cell was not written since. Raised by `Panel.readCell`; safe. -/
  | unknownCell
  deriving DecidableEq, Repr

/-- The reasons an instruction has no meaning. None is raised by this model; safe. -/
inductive Refusal
  /-- Raised by the arm of `exec` of an instruction that has no meaning yet; there is none. Safe. -/
  | notModelled (mnemonic : String)
  deriving DecidableEq, Repr

/-- The reset levels of the pins (R28). -/
def Pins.reset : Pins := { sclk := false, sda := false, csN := true, dc := false, rstN := true }

/-- The panel before anything is known of it (R28, R128, U10; the named values are log entry 5). -/
def Panel.reset : Panel :=
  { xs := 0, ys := 0, xe := 0, ye := 0, px := 0, py := 0, mode := .unspecified, mem := [], memUnknown := false,
    frame := [], stage := .off, owed := 0 }

/-- The machine right after block reset (R28), with an undriven port. `cur` is log entry 4, `cfg` log entries 2 and 3. -/
def State.reset : State :=
  { cfg := Config.reset, pins := Pins.reset, illegal := false, cur := 0, pending := [], host := [],
    panel := Panel.reset, free := 0 }

end Sys2Proof.Machine
end

