-- ==== Sys2Proof/Machine/Ops.lean ====
section
/-! DEFINITION. The shared operations over registers, memory and the sequencer: pin writes, the frame memory's bytes, starting a command's trace, and taking the one exception (rules R14, R24, R25, R32, R113). -/

namespace Sys2Proof.Machine

/-! ### Pin registers, R14 -/

/-- The level a pin holds. -/
def Pins.get (p : Pins) : Pin → Bool
  | .sclk => p.sclk
  | .sda => p.sda
  | .csN => p.csN
  | .dc => p.dc
  | .rstN => p.rstN

/-- Writing a level to a pin register (R26). -/
def Pins.set (p : Pins) (k : Pin) (l : Bool) : Pins :=
  match k with
  | .sclk => { p with sclk := l }
  | .sda => { p with sda := l }
  | .csN => { p with csN := l }
  | .dc => { p with dc := l }
  | .rstN => { p with rstN := l }

/-- The levels after an event: a wait holds all pins (R26). -/
def Pins.after (p : Pins) : Event → Pins
  | .w k l => p.set k l
  | .wait _ => p

/-- The levels after a whole trace. -/
def Pins.afterAll (p : Pins) : List Event → Pins
  | [] => p
  | e :: rest => (p.after e).afterAll rest

/-- `Levels(T)` of R29: the levels after each event, starting from the levels before. -/
def Pins.levels (p : Pins) : List Event → List Pins
  | [] => []
  | e :: rest => p.after e :: (p.after e).levels rest

/-! ### The frame memory's bytes, R32 (log entry 8) -/

/-- The byte at an address; none where no byte was written. -/
def Memory.read (m : Memory) (a : Nat) : Option Byte :=
  match m with
  | [] => none
  | (k, v) :: rest => if k = a then some v else Memory.read rest a

/-- Writing a byte keeps the list strictly rising. -/
def Memory.write (m : Memory) (a : Nat) (b : Byte) : Memory :=
  match m with
  | [] => [(a, b)]
  | (k, v) :: rest =>
    if a < k then (a, b) :: (k, v) :: rest
    else if a = k then (a, b) :: rest
    else (k, v) :: Memory.write rest a b

/-- Every listed address is above `a`, and they rise. -/
def Memory.risingAbove (a : Nat) : Memory → Bool
  | [] => true
  | (k, _) :: rest => decide (a < k) && Memory.risingAbove k rest

/-- The canonical form: addresses strictly rising. An unlisted address holds no byte, so no entry can equal one. -/
def Memory.wf : Memory → Bool
  | [] => true
  | (k, _) :: rest => Memory.risingAbove k rest

/-- The address of the high byte of cell (x, y): cells in row-major order, two bytes each, high byte first. -/
def cellAddr (x y : Nat) : Nat := 2 * (Config.panelW * y + x)

/-- `MemWrite((x, y), 2, w)` of R41. -/
def Memory.writeCell (m : Memory) (x y : Nat) (w : Half) : Memory :=
  (m.write (cellAddr x y) (w.extractLsb' 8 8)).write (cellAddr x y + 1) (w.extractLsb' 0 8)

/-- The 16-bit content of cell (x, y), none where it was not written. -/
def Memory.readCell (m : Memory) (x y : Nat) : Option Half :=
  match m.read (cellAddr x y), m.read (cellAddr x y + 1) with
  | some hi, some lo => some (hi ++ lo)
  | _, _ => none

/-! ### Starting a command, and the one exception -/

/-- `pending <- Trace(c)` of R25: the effect every legal command has when it is accepted. -/
def startTrace (t : List Event) (s : State) : Host.Outcome State Fault Refusal :=
  .next { s with pending := t }

/-- `raise Illegal(why)` of R113: ILLEGAL is set and sticks, nothing is pending, `cur` is not updated. The reason is
recorded nowhere (R114). There is no trap entry (R118) and no return (R119). -/
def raiseIllegal (_why : Illegal) (s : State) : State :=
  { s with illegal := true, pending := [] }

/-- A trace repeated `n` times. -/
def repeatTrace (n : Nat) (t : List Event) : List Event :=
  match n with
  | 0 => []
  | k + 1 => t ++ repeatTrace k t

end Sys2Proof.Machine
end

