-- ==== Sys2Proof/Machine/BitLink.lean ====
section
/-! DEFINITION. BitLink: the Send primitive (rule R71) and the three SEND commands (rules R74 to R76). -/

namespace Sys2Proof.Machine

/-- The bit loop of R71: bits `n - 1` down to 0, each as clock inactive, data, clock active. -/
def sendBits (w : Nat) (v : BitVec w) (n : Nat) : List Event :=
  match n with
  | 0 => []
  | k + 1 => .w .sclk Config.sclkInactive :: .w .sda (v.getLsbD k) :: .w .sclk Config.sclkActive :: sendBits w v k

/-- `Send(v, w, isData)` of R71. The width of `v` is its precondition 0 ≤ v < 2^w (R72). -/
def send (w : Nat) (v : BitVec w) (isData : Bool) : List Event :=
  .w .csN false :: .w .dc isData :: (sendBits w v w ++ [.w .csN true])

/-- An 8-bit panel command, DC = 0. -/
def sendCmd (v : Byte) : List Event := send 8 v false
/-- An 8-bit data word, DC = 1. -/
def sendByte (v : Byte) : List Event := send 8 v true
/-- A 16-bit data word, DC = 1. -/
def sendHalf (v : Half) : List Event := send 16 v true

/-- `Trace(SEND_CMD8 v)`, R74. -/
def traceSendCmd8 (v : Byte) : List Event := sendCmd v
/-- `Trace(SEND_DATA8 v)`, R75. -/
def traceSendData8 (v : Byte) : List Event := sendByte v
/-- `Trace(SEND_DATA16 v)`, R76. -/
def traceSendData16 (v : Half) : List Event := sendHalf v

/-- SEND_CMD8, R74. -/
def execSendCmd8 (v : Byte) (s : State) : Host.Outcome State Fault Refusal := startTrace (traceSendCmd8 v) s
/-- SEND_DATA8, R75. -/
def execSendData8 (v : Byte) (s : State) : Host.Outcome State Fault Refusal := startTrace (traceSendData8 v) s
/-- SEND_DATA16, R76. -/
def execSendData16 (v : Half) (s : State) : Host.Outcome State Fault Refusal := startTrace (traceSendData16 v) s

end Sys2Proof.Machine
end

