-- ==== Sys2Proof/Machine/Operands.lean ====
section
/-! DEFINITION. The operand forms: reading a field signed or unsigned, the wire form of a coordinate, the colour layout (rules R6, R35, R45, R58). -/

namespace Sys2Proof.Machine

/-- `sext_16(f)`: two's complement (R6). -/
def sext16 (f : Half) : Int := f.toInt

/-- `zext_16(f)`: unsigned (R6). -/
def zext16 (f : Half) : Nat := f.toNat

/-- `low16(v)` = v mod 2^16, the wire form of a coordinate, with no check of any kind (R6, R45). -/
def low16 (v : Int) : Half := BitVec.ofInt 16 v

/-- Red, c[15:11] (R35). -/
def red (c : Half) : BitVec 5 := c.extractLsb' 11 5
/-- Green, c[10:5] (R35). -/
def green (c : Half) : BitVec 6 := c.extractLsb' 5 6
/-- Blue, c[4:0] (R35). -/
def blue (c : Half) : BitVec 5 := c.extractLsb' 0 5

end Sys2Proof.Machine
end

