-- ==== Sys2Proof/Machine/AddressWindow.lean ====
section
/-! DEFINITION. The address window encoder (rules R89, R90). -/

namespace Sys2Proof.Machine

/-- `Window(xs, ys, xe, ye)` of R89, for integers of any value. -/
def window (cfg : Config) (xs ys xe ye : Int) : List Event :=
  sendCmd cfg.cmdCaset ++ sendHalf (low16 xs) ++ sendHalf (low16 xe)
    ++ sendCmd cfg.cmdRaset ++ sendHalf (low16 ys) ++ sendHalf (low16 ye)
    ++ sendCmd cfg.cmdRamwr

/-- `Trace(SET_WINDOW xs, ys, xe, ye)`, R90: raw 16-bit bounds. -/
def traceSetWindow (cfg : Config) (xs ys xe ye : Half) : List Event :=
  window cfg (zext16 xs) (zext16 ys) (zext16 xe) (zext16 ye)

/-- SET_WINDOW, R90. -/
def execSetWindow (xs ys xe ye : Half) (s : State) : Host.Outcome State Fault Refusal :=
  startTrace (traceSetWindow s.cfg xs ys xe ye) s

end Sys2Proof.Machine
end

