-- ==== Sys2Proof/Machine/ControllerInit.lean ====
section
/-! DEFINITION. NOP, the panel reset pulse, the blocking wait and the initialization sequence (rules R78 to R86). -/

namespace Sys2Proof.Machine

/-- `ResetPulse` of R79. -/
def resetPulse : List Event :=
  [.w .rstN false, .wait Config.tRstLowMs, .w .rstN true, .wait Config.tRstRecoverMs]

/-- `MADCTL_PARAM[orient]` (R85). -/
def madctlParam (cfg : Config) (orient : BitVec 2) : Byte :=
  if orient = 0 then cfg.madctl0
  else if orient = 1 then cfg.madctl1
  else if orient = 2 then cfg.madctl2
  else cfg.madctl3

/-- `Subst(p, orient)` of R82. -/
def substParam (cfg : Config) (orient : BitVec 2) : ParamByte → Byte
  | .lit b => b
  | .orient => madctlParam cfg orient

/-- `EntryTrace(e, orient)` of R82. -/
def entryTrace (cfg : Config) (orient : BitVec 2) (e : InitEntry) : List Event :=
  sendCmd e.cmd
    ++ e.params.flatMap (fun p => sendByte (substParam cfg orient p))
    ++ (if 0 < e.waitMs then [.wait e.waitMs] else [])

/-- `Trace(NOP)`, R78. -/
def traceNop : List Event := []
/-- `Trace(PANEL_RESET)`, R79. -/
def tracePanelReset : List Event := resetPulse
/-- `Trace(DELAY ms)`, R80. -/
def traceDelay (ms : Half) : List Event := [.wait ms.toNat]
/-- `Trace(INIT orient)`, R81: the pulse, then every entry in table order (R86). -/
def traceInit (cfg : Config) (orient : BitVec 2) : List Event :=
  resetPulse ++ cfg.initTable.flatMap (entryTrace cfg orient)

/-- NOP, R78. -/
def execNop (s : State) : Host.Outcome State Fault Refusal := startTrace traceNop s
/-- PANEL_RESET, R79. -/
def execPanelReset (s : State) : Host.Outcome State Fault Refusal := startTrace tracePanelReset s
/-- DELAY, R80. -/
def execDelay (ms : Half) (s : State) : Host.Outcome State Fault Refusal := startTrace (traceDelay ms) s
/-- INIT, R81. -/
def execInit (orient : BitVec 2) (s : State) : Host.Outcome State Fault Refusal :=
  startTrace (traceInit s.cfg orient) s

end Sys2Proof.Machine
end

