-- ==== Sys2Proof/Machine/Rasterizer.lean ====
section
/-! DEFINITION. The rasterizer engines and their commands (rules R94 to R108), in exact integer arithmetic (R6, D33). -/

namespace Sys2Proof.Machine

/-! ### Points, R94 -/

/-- `PointTrace(x, y, c)`: a one-pixel window and one colour word. -/
def pointTrace (cfg : Config) (c : Half) (p : Int × Int) : List Event :=
  window cfg p.1 p.2 p.1 p.2 ++ sendHalf c

/-- `PointsTrace(L, c)`, in list order, one window set per point (R94, R106). -/
def pointsTrace (cfg : Config) (pts : List (Int × Int)) (c : Half) : List Event :=
  pts.flatMap (pointTrace cfg c)

/-! ### Lines, R96 -/

/-- The unit step of a delta: 1, 0 or −1. -/
def unitStep (d : Int) : Int := if 0 < d then 1 else if d = 0 then 0 else -1

/-- `dx` after its sign is taken off: |x2 − x1|. -/
def lineDx (x1 x2 : Int) : Int := if 0 ≤ x2 - x1 then x2 - x1 else -(x2 - x1)

/-- `dy` after its sign handling: a negative delta is replaced as `LINE_NEG_DY` says, `dx` being |x2 − x1|. -/
def lineDy (neg : LineNegDy) (dx y1 y2 : Int) : Int :=
  if 0 ≤ y2 - y1 then y2 - y1
  else
    match neg with
    | .vertical => -(y2 - y1)
    | .horizontalMag => dx
    | .negHorizontalMag => -dx

/-- `Exceeds(e, d)`. -/
def exceeds (cmp : LineCmp) (e d : Int) : Bool :=
  match cmp with
  | .ge => decide (d ≤ e)
  | .gt => decide (d < e)

/-- An error term after a step, reduced when it exceeds `distance`. -/
def reduceErr (cmp : LineCmp) (e d : Int) : Int := if exceeds cmp e d then e - d else e

/-- A coordinate after a step, advanced when its error term exceeds `distance`. -/
def advance (cmp : LineCmp) (e d c inc : Int) : Int := if exceeds cmp e d then c + inc else c

/-- The loop of R96, `n` plots from the point (x, y) with the error terms `xerr`, `yerr`. -/
def lineLoop (cmp : LineCmp) (dx dy incx incy dist : Int) (n : Nat) (x y xerr yerr : Int) : List (Int × Int) :=
  match n with
  | 0 => []
  | k + 1 =>
    (x, y) ::
      lineLoop cmp dx dy incx incy dist k
        (advance cmp (xerr + dx) dist x incx) (advance cmp (yerr + dy) dist y incy)
        (reduceErr cmp (xerr + dx) dist) (reduceErr cmp (yerr + dy) dist)

/-- `distance` = max(dx, dy) of R96. -/
def lineDistance (neg : LineNegDy) (x1 y1 x2 y2 : Int) : Int :=
  max (lineDx x1 x2) (lineDy neg (lineDx x1 x2) y1 y2)

/-- `LinePoints(x1, y1, x2, y2)` of R96. -/
def linePoints (cmp : LineCmp) (neg : LineNegDy) (x1 y1 x2 y2 : Int) : List (Int × Int) :=
  lineLoop cmp (lineDx x1 x2) (lineDy neg (lineDx x1 x2) y1 y2) (unitStep (x2 - x1)) (unitStep (y2 - y1))
    (lineDistance neg x1 y1 x2 y2) ((lineDistance neg x1 y1 x2 y2).toNat + 1) x1 y1 0 0

/-- The points of a line under a configuration. -/
def cfgLine (cfg : Config) (x1 y1 x2 y2 : Int) : List (Int × Int) :=
  linePoints cfg.lineCmp cfg.lineNegDy x1 y1 x2 y2

/-! ### Rectangles, R100 -/

/-- The points of the four edges: top, left, bottom, right. -/
def rectPoints (cfg : Config) (x1 y1 x2 y2 : Int) : List (Int × Int) :=
  cfgLine cfg x1 y1 x2 y1 ++ cfgLine cfg x1 y1 x1 y2 ++ cfgLine cfg x1 y2 x2 y2 ++ cfgLine cfg x2 y1 x2 y2

/-! ### Circles, R101, R102 -/

/-- `Octants(x0, y0, a, b)` of R102, in its order. -/
def octants (x0 y0 a b : Int) : List (Int × Int) :=
  [(x0 + b, y0 + a), (x0 + b, y0 - a), (x0 - b, y0 + a), (x0 - b, y0 - a),
   (x0 + a, y0 + b), (x0 + a, y0 - b), (x0 - a, y0 + b), (x0 - a, y0 - b)]

/-- `b` after a pass: the test uses the incremented `a` and the current `b` (R101, D26). -/
def circleNextB (r a b : Int) : Int := if r * r < (a + 1) * (a + 1) + b * b then b - 1 else b

/-- The passes (a, b) of the loop of R101, the test before each pass (D25), at most `fuel` of them. -/
def circlePassesFrom (r : Int) (fuel : Nat) (a b : Int) : List (Int × Int) :=
  match fuel with
  | 0 => []
  | k + 1 => if a ≤ b then (a, b) :: circlePassesFrom r k (a + 1) (circleNextB r a b) else []

/-- The passes of a circle of radius `r`. The loop makes at most |r| + 1 passes (R69), so this fuel never runs out. -/
def circlePasses (r : Int) : List (Int × Int) := circlePassesFrom r (r.natAbs + 1) 0 r

/-- `CirclePoints(x0, y0, r)` of R101. -/
def circlePoints (x0 y0 r : Int) : List (Int × Int) :=
  (circlePasses r).flatMap (fun p => octants x0 y0 p.1 p.2)

/-! ### The commands -/

/-- `Trace(DRAW_POINT x, y, color)`, R95. -/
def traceDrawPoint (cfg : Config) (x y color : Half) : List Event := pointTrace cfg color (sext16 x, sext16 y)

/-- `Trace(DRAW_LINE x1, y1, x2, y2, color)`, R98. -/
def traceDrawLine (cfg : Config) (x1 y1 x2 y2 color : Half) : List Event :=
  pointsTrace cfg (cfgLine cfg (sext16 x1) (sext16 y1) (sext16 x2) (sext16 y2)) color

/-- `Trace(DRAW_RECT x1, y1, x2, y2, color)`, R100. -/
def traceDrawRect (cfg : Config) (x1 y1 x2 y2 color : Half) : List Event :=
  pointsTrace cfg (rectPoints cfg (sext16 x1) (sext16 y1) (sext16 x2) (sext16 y2)) color

/-- `Trace(DRAW_CIRCLE x0, y0, r, color)`, R103. -/
def traceDrawCircle (cfg : Config) (x0 y0 r color : Half) : List Event :=
  pointsTrace cfg (circlePoints (sext16 x0) (sext16 y0) (sext16 r)) color

/-- `Trace(CLEAR color)`, R105: the full window, then one word per cell. -/
def traceClear (cfg : Config) (color : Half) : List Event :=
  window cfg 0 0 (Config.panelW - 1) (Config.panelH - 1)
    ++ repeatTrace (Config.panelW * Config.panelH) (sendHalf color)

/-- DRAW_POINT, R95. -/
def execDrawPoint (x y color : Half) (s : State) : Host.Outcome State Fault Refusal :=
  startTrace (traceDrawPoint s.cfg x y color) s
/-- DRAW_LINE, R98. -/
def execDrawLine (x1 y1 x2 y2 color : Half) (s : State) : Host.Outcome State Fault Refusal :=
  startTrace (traceDrawLine s.cfg x1 y1 x2 y2 color) s
/-- DRAW_RECT, R100. -/
def execDrawRect (x1 y1 x2 y2 color : Half) (s : State) : Host.Outcome State Fault Refusal :=
  startTrace (traceDrawRect s.cfg x1 y1 x2 y2 color) s
/-- DRAW_CIRCLE, R103. -/
def execDrawCircle (x0 y0 r color : Half) (s : State) : Host.Outcome State Fault Refusal :=
  startTrace (traceDrawCircle s.cfg x0 y0 r color) s
/-- CLEAR, R105. -/
def execClear (color : Half) (s : State) : Host.Outcome State Fault Refusal :=
  startTrace (traceClear s.cfg color) s

end Sys2Proof.Machine
end

