-- ==== Sys2Proof/Machine/Dispatch.lean ====
section
/-! DEFINITION. One arm per command (rule R69). -/

namespace Sys2Proof.Machine

/-- The effect of accepting a legal command (R25, R69). -/
def exec (i : Instr) (s : State) : Host.Outcome State Fault Refusal :=
  match i with
  | .nop => Sys2Proof.Machine.execNop s
  | .sendCmd8 v => Sys2Proof.Machine.execSendCmd8 v s
  | .sendData8 v => Sys2Proof.Machine.execSendData8 v s
  | .sendData16 v => Sys2Proof.Machine.execSendData16 v s
  | .panelReset => Sys2Proof.Machine.execPanelReset s
  | .delay ms => Sys2Proof.Machine.execDelay ms s
  | .init orient => Sys2Proof.Machine.execInit orient s
  | .setWindow xs ys xe ye => Sys2Proof.Machine.execSetWindow xs ys xe ye s
  | .drawPoint x y color => Sys2Proof.Machine.execDrawPoint x y color s
  | .drawLine x1 y1 x2 y2 color => Sys2Proof.Machine.execDrawLine x1 y1 x2 y2 color s
  | .drawRect x1 y1 x2 y2 color => Sys2Proof.Machine.execDrawRect x1 y1 x2 y2 color s
  | .drawCircle x0 y0 r color => Sys2Proof.Machine.execDrawCircle x0 y0 r color s
  | .clear color => Sys2Proof.Machine.execClear color s

end Sys2Proof.Machine
end

