-- ==== Sys2Proof/Machine/Flags.lean ====
section
/-! DEFINITION. STATUS and the handshake output (rules R20, R25). The SDE has no other flag (R23). -/

namespace Sys2Proof.Machine

/-- `STATUS.BUSY` = (pending ≠ [ ]) (R20). -/
def State.busy (s : State) : Bool := !s.pending.isEmpty

/-- The `STATUS` output: bit 0 BUSY, bit 1 ILLEGAL (R20). -/
def State.status (s : State) : BitVec 2 := BitVec.ofBool s.illegal ++ BitVec.ofBool s.busy

/-- The `RST_BLK` input at this edge (R13). -/
def State.rstBlk (s : State) : Bool :=
  match s.host with
  | [] => false
  | h :: _ => h.rstBlk

/-- The word on `CMD` with `CMD_VALID` = 1 at this edge; none when `CMD_VALID` = 0 (R13). -/
def State.offered (s : State) : Option CmdWord :=
  match s.host with
  | [] => none
  | h :: _ => h.offer

/-- The `CMD_VALID` input (R13). -/
def State.cmdValid (s : State) : Bool := s.offered.isSome

/-- `CMD_READY` = 1 exactly when RST_BLK = 0 and pending = [ ] (R25). -/
def State.cmdReady (s : State) : Bool := !s.rstBlk && s.pending.isEmpty

end Sys2Proof.Machine
end

