-- ==== Sys2Proof/Machine/Panel.lean ====
section
/-! DEFINITION. The panel's receiver reference model (rules R36 to R44), the premises of its use (rules R87, R129 to R133), and the claim-side read of a cell (rule R32). In every operation `n` is the index of the free values it may use. -/

namespace Sys2Proof.Machine

/-! ### Sampling, R36, R37 -/

/-- What a change of levels means to the sampler: CS_N falling or rising, or SCLK going from the inactive to the
active level while CS_N = 0 (R36). -/
def wireEvent (before after : Pins) : Option WireEvent :=
  if before.csN && !after.csN then some .start
  else if !before.csN && after.csN then some .stop
  else if !after.csN && before.sclk == Config.sclkInactive && after.sclk == Config.sclkActive then
    some (.bit { dc := after.dc, sda := after.sda })
  else none

/-- A byte from eight bits, most significant first, with its DC level (R33, R37). -/
def wireByte (dc b7 b6 b5 b4 b3 b2 b1 b0 : Bool) : WireByte :=
  let b : Byte :=
    BitVec.ofBool b7 ++ BitVec.ofBool b6 ++ BitVec.ofBool b5 ++ BitVec.ofBool b4
      ++ BitVec.ofBool b3 ++ BitVec.ofBool b2 ++ BitVec.ofBool b1 ++ BitVec.ofBool b0
  if dc then .data b else .cmd b

/-- The bytes of a frame (R37); none if the frame is not whole bytes of one DC level each, which no frame of the SDE
is (log entry 17). -/
def bytesOfFrame : List Sample → Option (List WireByte)
  | [] => some []
  | s7 :: s6 :: s5 :: s4 :: s3 :: s2 :: s1 :: s0 :: rest =>
    if [s6, s5, s4, s3, s2, s1, s0].all (fun s => s.dc == s7.dc) then
      (bytesOfFrame rest).map
        (fun bs => wireByte s7.dc s7.sda s6.sda s5.sda s4.sda s3.sda s2.sda s1.sda s0.sda :: bs)
    else none
  | _ => none

/-- The frames completed on the wire while the events of a trace are performed, from the levels `p` and the bits
`acc` sampled so far (R36). -/
def framesFrom (p : Pins) (acc : List Sample) (t : List Event) : List (List Sample) :=
  match t with
  | [] => []
  | e :: rest =>
    match wireEvent p (p.after e) with
    | none => framesFrom (p.after e) acc rest
    | some .start => framesFrom (p.after e) [] rest
    | some (.bit b) => framesFrom (p.after e) (acc ++ [b]) rest
    | some .stop => acc :: framesFrom (p.after e) [] rest

/-- The frames of a trace performed from the levels `p`. -/
def wireFrames (p : Pins) (t : List Event) : List (List Sample) := framesFrom p [] t

/-- The byte stream of a trace performed from the levels `p` (R37); a frame that is not whole bytes gives none. -/
def byteStream (p : Pins) (t : List Event) : List WireByte :=
  (wireFrames p t).flatMap (fun f => (bytesOfFrame f).getD [])

namespace Panel

/-! ### What becomes unknown -/

/-- The whole frame memory becomes unknown (R43, U1, U2, U12). -/
def loseMem (p : Panel) : Panel := { p with mem := [], memUnknown := true }

/-- Free column bounds (U3). -/
def freeCols (n : Nat) (p : Panel) : Panel := { p with xs := Config.freeXs n, xe := Config.freeXe n }

/-- Free row bounds (U3). -/
def freeRows (n : Nat) (p : Panel) : Panel := { p with ys := Config.freeYs n, ye := Config.freeYe n }

/-- Free bounds and a free write pointer (U10, R87). -/
def freeWindow (n : Nat) (p : Panel) : Panel :=
  { (p.freeCols n).freeRows n with px := Config.freePx n, py := Config.freePy n }

/-- Window, pointer and mode become unspecified (R28, R38, R87). -/
def loseWindow (n : Nat) (p : Panel) : Panel := { p.freeWindow n with mode := .unspecified }

/-- Window, pointer, mode and frame memory become unknown (U4, U5). -/
def forget (n : Nat) (p : Panel) : Panel := { (p.loseWindow n).loseMem with frame := [] }

/-- Not known to be addressable (R131, U5). What is owed stays owed. -/
def switchOff (p : Panel) : Panel := { p with stage := .off }

/-! ### Window and pixels, R39 to R43 -/

/-- R43. -/
def windowValid (p : Panel) : Bool :=
  decide (p.xs.toNat ≤ p.xe.toNat ∧ p.xe.toNat ≤ Config.panelW - 1
    ∧ p.ys.toNat ≤ p.ye.toNat ∧ p.ye.toNat ≤ Config.panelH - 1)

/-- The write pointer lies in the window (R41). -/
def pointerIn (p : Panel) : Bool :=
  decide (p.ys.toNat ≤ p.py ∧ p.py ≤ p.ye.toNat ∧ p.xs.toNat ≤ p.px ∧ p.px ≤ p.xe.toNat)

/-- The panel is addressable (R87): brought up, and no wait owed. -/
def addressable (p : Panel) : Bool := decide (p.stage = .ready) && p.owed == 0

/-- Row-major auto-increment (R41). -/
def advancePointer (p : Panel) : Panel :=
  if p.xe.toNat < p.px + 1 then { p with px := p.xs.toNat, py := p.py + 1 } else { p with px := p.px + 1 }

/-- A pixel word (R41); the frame memory becomes unknown when the window is invalid (U2) or exhausted (U1). A panel that
is not addressable (U12) takes no pixel word: `receive`. -/
def pixel (w : Half) (p : Panel) : Panel :=
  if p.windowValid && p.pointerIn then
    { p with mem := p.mem.writeCell p.px p.py w }.advancePointer
  else p.loseMem

/-- A data byte in mode IDLE. The bounds persist (R42) and the mode stays; of the pointer and the frame memory nothing is
said, and they become unknown (log entry 15, DESIGN CHOICE). -/
def strayData (n : Nat) (p : Panel) : Panel :=
  { p.loseMem with px := Config.freePx n, py := Config.freePy n }

/-- A data byte (R39 to R41, R44). In an unspecified mode it can be any byte of these, and everything becomes unknown
(log entry 15, DESIGN CHOICE). -/
def dataByte (n : Nat) (b : Byte) (p : Panel) : Panel :=
  match p.mode with
  | .col [d0, d1, d2] => { p with xs := d0 ++ d1, xe := d2 ++ b, mode := .idle }
  | .col got => { p with mode := .col (got ++ [b]) }
  | .row [d0, d1, d2] => { p with ys := d0 ++ d1, ye := d2 ++ b, mode := .idle }
  | .row got => { p with mode := .row (got ++ [b]) }
  | .write none => { p with mode := .write (some b) }
  | .write (some hi) => { p with mode := .write none }.pixel (hi ++ b)
  | .other => p
  | .idle => p.strayData n
  | .unspecified => p.forget n

/-- What a command byte does to the mode it interrupts (R42): a short address set leaves free bounds (R39, U3). -/
def interrupt (n : Nat) (p : Panel) : Panel :=
  match p.mode with
  | .col _ => p.freeCols n
  | .row _ => p.freeRows n
  | .idle => p
  | .write _ => p
  | .other => p
  | .unspecified => p

/-- `CMD_RAMWR` (R41, R43): the pointer goes to the window's start; an invalid window loses the frame memory (U2). -/
def memoryWrite (p : Panel) : Panel :=
  let q : Panel := { p with px := p.xs.toNat, py := p.ys.toNat, mode := .write none }
  if q.windowValid then q else q.loseMem

/-- The three window commands (R39 to R41) and every other command, which changes the mode only (R44). Of numbers that are
equal, which R5 does not rule out, the first of CASET, RASET, RAMWR is taken (log entry 31, DESIGN CHOICE). -/
def windowCommand (cfg : Config) (c : Byte) (p : Panel) : Panel :=
  if c = cfg.cmdCaset then { p with mode := .col [] }
  else if c = cfg.cmdRaset then { p with mode := .row [] }
  else if c = cfg.cmdRamwr then p.memoryWrite
  else { p with mode := .other }

/-! ### Bring-up: the premises of R87, R129, R131, R133 (log entries 10 to 12) -/

/-- The bring-up is done: the receiver model applies from an unspecified window with no cell written (R87; section 8, S0). -/
def becomeReady (n : Nat) (owed : Nat) (p : Panel) : Panel :=
  { p.loseWindow n with mem := [], memUnknown := false, stage := .ready, owed := owed }

/-- Sleep-out and display-on, and the waits they oblige the host to (R84, R133). A byte that is the number of both, which
R5 does not rule out, counts as sleep-out only (log entry 30, DESIGN CHOICE). One that is also the number of a window
command counts as both (log entry 31, DESIGN CHOICE). -/
def bringUp (cfg : Config) (n : Nat) (c : Byte) (p : Panel) : Panel :=
  if c = cfg.cmdSlpout then
    match p.stage with
    | .released => { p with stage := .awake, owed := Config.tSlpoutMs }
    | .awake => { p with owed := Config.tSlpoutMs }
    | .ready => { p with owed := Config.tSlpoutMs }
    | .off => p
    | .inReset => p
  else if c = cfg.cmdDispon then
    match p.stage with
    | .awake => p.becomeReady n Config.tDisponMs
    | .released => { p with owed := Config.tDisponMs }
    | .ready => { p with owed := Config.tDisponMs }
    | .off => p
    | .inReset => p
  else p

/-- A command byte (R39 to R42, R44). -/
def commandByte (cfg : Config) (n : Nat) (c : Byte) (p : Panel) : Panel := (p.interrupt n).windowCommand cfg c

/-- What the receiver model makes of a byte (R39 to R44). -/
def applyByte (cfg : Config) (n : Nat) (b : WireByte) (p : Panel) : Panel :=
  match b with
  | .cmd c => p.commandByte cfg n c
  | .data d => p.dataByte n d

/-- One byte of the stream (R37). The receiver model applies to an addressable panel only (R88, R129, R131); of any other
panel a byte leaves window, pointer, mode and frame memory unknown (U5, U12; log entry 29, DEDUCED). A command byte also
counts for the bring-up. -/
def receive (cfg : Config) (n : Nat) (b : WireByte) (p : Panel) : Panel :=
  let q := if p.addressable then p.applyByte cfg n b else p.forget n
  match b with
  | .cmd c => q.bringUp cfg n c
  | .data _ => q

/-- The bytes of a stream in order. -/
def receiveAll (cfg : Config) (n : Nat) (bs : List WireByte) (p : Panel) : Panel :=
  bs.foldl (fun q b => q.receive cfg n b) p

/-- CS_N falls: a frame begins. With a wait still owed the panel is not assumed addressable (U5). -/
def frameStart (n : Nat) (p : Panel) : Panel :=
  if p.owed = 0 then { p with frame := [] } else (p.forget n).switchOff

/-- CS_N rises: the frame's bytes are received (R36, R37). -/
def frameStop (cfg : Config) (n : Nat) (p : Panel) : Panel :=
  match bytesOfFrame p.frame with
  | some bs => { p with frame := [] }.receiveAll cfg n bs
  | none => p.forget n

/-- What the sampler sees. -/
def sampled (cfg : Config) (n : Nat) (e : Option WireEvent) (p : Panel) : Panel :=
  match e with
  | none => p
  | some .start => p.frameStart n
  | some (.bit b) => { p with frame := p.frame ++ [b] }
  | some .stop => p.frameStop cfg n

/-- RST_N falls: the panel is in reset, all its state is unspecified and no cell is written (R38, R79, U10). -/
def resetAsserted (n : Nat) (p : Panel) : Panel :=
  { p.forget n with memUnknown := false, stage := .inReset, owed := Config.tRstLowMs }

/-- RST_N rises: released, if the reset was held long enough (R79). A shorter reset, which no command gives, leaves
everything unknown. -/
def resetReleased (n : Nat) (p : Panel) : Panel :=
  if p.stage = .inReset ∧ p.owed = 0 then { p with stage := .released, owed := Config.tRstRecoverMs }
  else (p.forget n).switchOff

/-- What the panel makes of RST_N. -/
def resetLine (n : Nat) (before after : Pins) (p : Panel) : Panel :=
  if before.rstN && !after.rstN then p.resetAsserted n
  else if !before.rstN && after.rstN then p.resetReleased n
  else p

/-- The panel sees the levels change by one event. -/
def observe (cfg : Config) (n : Nat) (before after : Pins) (p : Panel) : Panel :=
  (p.resetLine n before after).sampled cfg n (wireEvent before after)

/-- At least `ms` milliseconds pass (R26): they count toward the wait owed. -/
def elapse (ms : Nat) (p : Panel) : Panel := { p with owed := p.owed - ms }

/-- INIT's last event has been performed: the panel is assumed addressable, from an unspecified window (R87). -/
def initDone (n : Nat) (p : Panel) : Panel :=
  if p.addressable then p else p.becomeReady n 0

/-- Block reset drives the pins directly and does not reach the panel (R28, R126). It ends the premise of R131, and the
window, pointer and mode are unspecified (R28). If it cuts a transmission the frame memory is unknown too (R127, U4), else
it is untouched (X-R3). The wait that is owed stays owed (log entry 13). -/
def blockReset (n : Nat) (csN : Bool) (p : Panel) : Panel :=
  if csN then (p.loseWindow n).switchOff else (p.forget n).switchOff

/-! ### The claim-side read -/

/-- The content of cell (x, y), or the fault of a claim that reads it (R32, R43, R50). -/
def readCell (p : Panel) (x y : Nat) : Except Fault Half :=
  if x < Config.panelW ∧ y < Config.panelH then
    match p.mem.readCell x y with
    | some w => .ok w
    | none => .error (if p.memUnknown then .unknownCell else .unwrittenCell)
  else .error .noSuchCell

end Panel

end Sys2Proof.Machine
end

