-- ==== Sys2Proof/Machine/Sequencer.lean ====
section
/-! DEFINITION. The sequencer: block reset, acceptance of a command, performing an event (rules R25, R26, R113, R117, R126), and one edge of CLK_SYS. -/

namespace Sys2Proof.Machine

/-- The ports at the next edge while `w` waits to be accepted (R25). An entry that offers no word is the host's drive of
`RST_BLK` at that edge, so a block reset can come over a waiting word at any edge (R13, R126). An entry that offers another
word comes after `w` is accepted (log entry 6, DESIGN CHOICE). -/
def holdWord (w : CmdWord) (rest : List HostIn) : List HostIn :=
  match rest with
  | [] => [{ rstBlk := false, offer := some w }]
  | h :: more =>
    match h.offer with
    | none => { rstBlk := h.rstBlk, offer := some w } :: more
    | some _ => { rstBlk := false, offer := some w } :: h :: more

/-- What the host drives from the next edge on, when no word was accepted at this one. -/
def nextPorts (host : List HostIn) : List HostIn :=
  match host with
  | [] => []
  | h :: rest =>
    match h.offer with
    | none => rest
    | some w => holdWord w rest

namespace State

/-- The host's ports move on: an offered word waits at the port until it is accepted (R25), anything else was driven
for this edge. -/
def portHold (s : State) : State := { s with host := nextPorts s.host }

/-- The offered word is taken from the port (R25). -/
def portTake (s : State) : State := { s with host := s.host.tail }

/-- Block reset (R28, R126): every pin and STATUS at its reset value, nothing pending, `cur` a free value (U8); the
panel is not reset (R127, R128). -/
def blockReset (s : State) : State :=
  { s with
    pins := Pins.reset, illegal := false, cur := Config.freeCur s.free, pending := [],
    panel := s.panel.blockReset s.free s.pins.csN, free := s.free + 1 }

/-- Performing one event (R26): a pin write, which the panel sees as levels (R29), or a wait, which holds all pins. -/
def performEvent (e : Event) (s : State) : State :=
  match e with
  | .w k l =>
    { s with
      pins := s.pins.set k l,
      panel := s.panel.observe s.cfg s.free s.pins (s.pins.set k l), free := s.free + 1 }
  | .wait ms => { s with panel := s.panel.elapse ms, free := s.free + 1 }

/-- The events of a trace, in order (R51). -/
def performAll (t : List Event) (s : State) : State :=
  match t with
  | [] => s
  | e :: rest => (s.performEvent e).performAll rest

/-- The command in progress is INIT. -/
def curIsInit (s : State) : Bool := fieldOp s.cur == Op.init.number

/-- After an event: if it was the last one of INIT, the panel is assumed addressable (R87; log entry 12). -/
def settleInit (s : State) : State :=
  if s.curIsInit && s.pending.isEmpty then
    { s with panel := s.panel.initDone s.free, free := s.free + 1 }
  else s

/-- Performing the first pending event, `e`, with `rest` left (R26). -/
def performNext (e : Event) (rest : List Event) (s : State) : State :=
  ({ s with pending := rest }.performEvent e).settleInit

/-- `cur <- CMD` at acceptance (R25, R53): the word is latched whole. -/
def latch (w : CmdWord) (s : State) : State := { s.portTake with cur := w }

end State

/-- A word is accepted (R25): a legal one is latched and its trace becomes pending, an illegal one raises Illegal
and `cur` is not updated (R113). -/
def accept (w : CmdWord) (s : State) : Host.Outcome State Fault Refusal :=
  match decode w with
  | .legal i => exec i (s.latch w)
  | .illegal why => .next (raiseIllegal why s.portTake)

/-- An edge with nothing pending and no reset: a word is accepted if one is offered, else nothing happens (R25). -/
def idleEdge (s : State) : Host.Outcome State Fault Refusal :=
  match s.offered with
  | some w => accept w s
  | none => .next s.portHold

/-- One edge of CLK_SYS in the priority of R117: block reset, else the next event, else acceptance. -/
def edge (s : State) : Host.Outcome State Fault Refusal :=
  if s.rstBlk then .next s.blockReset.portHold
  else
    match s.pending with
    | e :: rest => .next (s.performNext e rest).portHold
    | [] => idleEdge s

/-- A state whose next edge accepts `w`: the port offers it, no reset is asserted and nothing is pending. -/
def State.offerFirst (w : CmdWord) (s : State) : State :=
  { s with pending := [], host := { rstBlk := false, offer := some w } :: s.host }

end Sys2Proof.Machine
end

