-- ==== Sys2Proof/Machine/Step.lean ====
section
/-! DEFINITION. One step of the machine is one edge of CLK_SYS (rules R13, R26, R117). -/

namespace Sys2Proof.Machine

/-- One step. -/
def step (s : State) : Host.Outcome State Fault Refusal := edge s

/-- `s` with a word of `nbits` bits (every higher bit 0) at the command port, so that the very next step accepts it:
offered, no reset asserted, nothing pending (R25; log entry 7). -/
def State.withFetchWord (s : State) (nbits w : Nat) : State :=
  s.offerFirst (BitVec.ofNat 96 (w % 2 ^ nbits))

end Sys2Proof.Machine
end

