-- ==== Sys2Proof/Machine/Assembler.lean ====
section
/-! DEFINITION. The assembly syntax and the pseudo-instructions (rules R64, R65), and the hexadecimal form of a command word (rule R66). -/

namespace Sys2Proof.Machine

/-- The commands a well-formed statement stands for: a row of R59, or the expansion of a pseudo-instruction (R65). -/
def expandStmt (a : AsmStmt) : List Instr :=
  match a.mnemonic, a.operands with
  | "NOP", [] => [.nop]
  | "SEND_CMD8", [v] => [.sendCmd8 (BitVec.ofInt 8 v)]
  | "SEND_DATA8", [v] => [.sendData8 (BitVec.ofInt 8 v)]
  | "SEND_DATA16", [v] => [.sendData16 (low16 v)]
  | "PANEL_RESET", [] => [.panelReset]
  | "DELAY", [ms] => [.delay (low16 ms)]
  | "INIT", [o] => [.init (BitVec.ofInt 2 o)]
  | "SET_WINDOW", [xs, ys, xe, ye] => [.setWindow (low16 xs) (low16 ys) (low16 xe) (low16 ye)]
  | "DRAW_POINT", [x, y, c] => [.drawPoint (low16 x) (low16 y) (low16 c)]
  | "DRAW_LINE", [x1, y1, x2, y2, c] => [.drawLine (low16 x1) (low16 y1) (low16 x2) (low16 y2) (low16 c)]
  | "DRAW_RECT", [x1, y1, x2, y2, c] => [.drawRect (low16 x1) (low16 y1) (low16 x2) (low16 y2) (low16 c)]
  | "DRAW_CIRCLE", [x0, y0, r, c] => [.drawCircle (low16 x0) (low16 y0) (low16 r) (low16 c)]
  | "CLEAR", [c] => [.clear (low16 c)]
  | "PANEL_CMD", c :: ps => .sendCmd8 (BitVec.ofInt 8 c) :: ps.map (fun p => .sendData8 (BitVec.ofInt 8 p))
  | "PIXEL", [c] => [.sendData16 (low16 c)]
  | "HLINE", [x1, x2, y, c] => [.drawLine (low16 x1) (low16 y) (low16 x2) (low16 y) (low16 c)]
  | "VLINE", [x, y1, y2, c] => [.drawLine (low16 x) (low16 y1) (low16 x) (low16 y2) (low16 c)]
  | _, _ => []

/-- Assembling a statement: refused if it is not well formed (R64). -/
def assembleStmt (a : AsmStmt) : Except AsmError (List Instr) :=
  match a.check with
  | some e => .error e
  | none => .ok (expandStmt a)

/-- The statement that is a command, its operands read as R58 says. -/
def disassemble (i : Instr) : AsmStmt :=
  { mnemonic := i.op.mnemonic,
    operands :=
      match i with
      | .nop => []
      | .sendCmd8 v => [(v.toNat : Int)]
      | .sendData8 v => [(v.toNat : Int)]
      | .sendData16 v => [(zext16 v : Int)]
      | .panelReset => []
      | .delay ms => [(zext16 ms : Int)]
      | .init orient => [(orient.toNat : Int)]
      | .setWindow xs ys xe ye => [(zext16 xs : Int), (zext16 ys : Int), (zext16 xe : Int), (zext16 ye : Int)]
      | .drawPoint x y color => [sext16 x, sext16 y, (zext16 color : Int)]
      | .drawLine x1 y1 x2 y2 color => [sext16 x1, sext16 y1, sext16 x2, sext16 y2, (zext16 color : Int)]
      | .drawRect x1 y1 x2 y2 color => [sext16 x1, sext16 y1, sext16 x2, sext16 y2, (zext16 color : Int)]
      | .drawCircle x0 y0 r color => [sext16 x0, sext16 y0, sext16 r, (zext16 color : Int)]
      | .clear color => [(zext16 color : Int)] }

/-! ### The text of a line (R64; log entry 24) -/

/-- The pieces of a text between the characters `sep`. -/
def splitText (sep : Char) : List Char → List (List Char)
  | [] => [[]]
  | c :: rest =>
    match splitText sep rest with
    | [] => [[c]]
    | piece :: more => if c = sep then [] :: piece :: more else (c :: piece) :: more

/-- Blanks and tabs. -/
def isBlank (c : Char) : Bool := c == ' ' || c == '\t'

/-- A text without the blanks around it. -/
def trimText (cs : List Char) : List Char := ((cs.dropWhile isBlank).reverse.dropWhile isBlank).reverse

/-- The value of a digit in a base of at most sixteen. -/
def digitVal (base : Nat) (c : Char) : Option Nat :=
  let v :=
    if '0' ≤ c ∧ c ≤ '9' then c.toNat - '0'.toNat
    else if 'a' ≤ c ∧ c ≤ 'f' then c.toNat - 'a'.toNat + 10
    else if 'A' ≤ c ∧ c ≤ 'F' then c.toNat - 'A'.toNat + 10
    else base
  if v < base then some v else none

/-- The digits of a number, most significant first; none if there is no digit or a character is no digit. -/
def digits (base : Nat) (cs : List Char) : Option Nat :=
  match cs with
  | [] => none
  | _ => cs.foldl (fun acc c => acc.bind (fun a => (digitVal base c).map (fun d => base * a + d))) (some 0)

/-- A number: decimal, possibly negative, or hexadecimal with a 0x prefix. -/
def parseNumber (cs : List Char) : Option Int :=
  match cs with
  | '0' :: 'x' :: rest => (digits 16 rest).map Int.ofNat
  | '-' :: rest => (digits 10 rest).map (fun n => -(Int.ofNat n))
  | _ => (digits 10 cs).map Int.ofNat

/-- The operands of a line. -/
def parseOperands (cs : List Char) : Option (List Int) :=
  match trimText cs with
  | [] => some []
  | text => (splitText ',' text).mapM (fun piece => parseNumber (trimText piece))

/-- One line: a mnemonic, operands separated by commas, a comment after a semicolon. A line with no mnemonic gives
no command. -/
def assembleLine (line : String) : Except AsmError (List Instr) :=
  let code := trimText ((line.toList).takeWhile (fun c => c != ';'))
  match code with
  | [] => .ok []
  | _ =>
    match parseOperands (code.dropWhile (fun c => !isBlank c)) with
    | none => .error .notANumber
    | some ops => assembleStmt { mnemonic := String.ofList (code.takeWhile (fun c => !isBlank c)), operands := ops }

/-! ### The hexadecimal form, R66 -/

/-- The character of a hexadecimal digit. -/
def hexDigit (v : BitVec 4) : Char :=
  if v.toNat < 10 then Char.ofNat ('0'.toNat + v.toNat) else Char.ofNat ('A'.toNat + (v.toNat - 10))

/-- The `n` lowest hexadecimal digits of a word, most significant first. -/
def hexDigits (n : Nat) (w : CmdWord) : List Char :=
  match n with
  | 0 => []
  | k + 1 => hexDigit (w.extractLsb' (4 * k) 4) :: hexDigits k w

/-- A command word as 24 hexadecimal digits, bit 95 first (R66). -/
def hexWord (w : CmdWord) : List Char := hexDigits 24 w

end Sys2Proof.Machine
end

