-- ==== Sys2Proof/Machine/Observe.lean ====
section
/-! DEFINITION. What is observed of a run (rules R7, R29, R30, R69): `Trace(cmd)`, the events a run performs, the final levels and STATUS. -/

namespace Sys2Proof.Machine

/-- `Trace(c)` of a legal command (R69). -/
def traceOf (cfg : Config) (i : Instr) : List Event :=
  match i with
  | .nop => traceNop
  | .sendCmd8 v => traceSendCmd8 v
  | .sendData8 v => traceSendData8 v
  | .sendData16 v => traceSendData16 v
  | .panelReset => tracePanelReset
  | .delay ms => traceDelay ms
  | .init orient => traceInit cfg orient
  | .setWindow xs ys xe ye => traceSetWindow cfg xs ys xe ye
  | .drawPoint x y color => traceDrawPoint cfg x y color
  | .drawLine x1 y1 x2 y2 color => traceDrawLine cfg x1 y1 x2 y2 color
  | .drawRect x1 y1 x2 y2 color => traceDrawRect cfg x1 y1 x2 y2 color
  | .drawCircle x0 y0 r color => traceDrawCircle cfg x0 y0 r color
  | .clear color => traceClear cfg color

/-- What a command word contributes to a trace: its command's trace, or nothing if it is illegal (R30). -/
def wordTrace (cfg : Config) (w : CmdWord) : List Event :=
  match decode w with
  | .legal i => traceOf cfg i
  | .illegal _ => []

/-- The event the next step performs, if it performs one (R26, R117). -/
def State.nextEvent (s : State) : Option Event := if s.rstBlk then none else s.pending.head?

/-- `k` steps, stopping at the first fault or refusal (there is none, R115). -/
def runSteps (k : Nat) (s : State) : Host.Outcome State Fault Refusal :=
  match k with
  | 0 => .next s
  | j + 1 =>
    match step s with
    | .next t => runSteps j t
    | .fault r => .fault r
    | .refused r => .refused r

/-- The trace that `k` steps perform (R7). -/
def performed (k : Nat) (s : State) : List Event :=
  match k with
  | 0 => []
  | j + 1 =>
    s.nextEvent.toList ++
      (match step s with
       | .next t => performed j t
       | .fault _ => []
       | .refused _ => [])

/-- The observation of a run (R30): its trace, the final pin levels, the final STATUS. -/
structure Observation where
  trace  : List Event
  pins   : Pins
  status : BitVec 2
  deriving DecidableEq, Repr

/-- The observation of `k` steps from `s`. -/
def observeRun (k : Nat) (s : State) : Option Observation :=
  match runSteps k s with
  | .next t => some { trace := performed k s, pins := t.pins, status := t.status }
  | .fault _ => none
  | .refused _ => none

/-- A host program (R30): words offered in order, with no block reset in between. -/
def hostProgram (ws : List CmdWord) : List HostIn := ws.map (fun w => { rstBlk := false, offer := some w })

/-- The steps a host program takes: one to accept each word, one for each event. -/
def programSteps (cfg : Config) (ws : List CmdWord) : Nat :=
  (ws.map (fun w => (wordTrace cfg w).length + 1)).sum

end Sys2Proof.Machine
end

