-- ==== Sys2Proof/Safety.lean ====
section
/-! DEFINITION. The terms claims use: the premises of a claim about panel content (rules R129 to R134), transmissions (rule R47), and what holds of every state a run reaches. -/

namespace Sys2Proof.Machine

/-- Cell (x, y) exists: both coordinates in 0..239 (R32, R132). -/
def onPanel (p : Int × Int) : Prop := 0 ≤ p.1 ∧ p.1 ≤ 239 ∧ 0 ≤ p.2 ∧ p.2 ≤ 239

/-- The command numbers a content claim needs apart: the three window commands differ from each other and from
sleep-out and display-on. The defaults of R5 are so. -/
def commandsApart (cfg : Config) : Prop :=
  cfg.cmdCaset ≠ cfg.cmdRaset ∧ cfg.cmdCaset ≠ cfg.cmdRamwr ∧ cfg.cmdRaset ≠ cfg.cmdRamwr ∧
  cfg.cmdCaset ≠ cfg.cmdSlpout ∧ cfg.cmdCaset ≠ cfg.cmdDispon ∧
  cfg.cmdRaset ≠ cfg.cmdSlpout ∧ cfg.cmdRaset ≠ cfg.cmdDispon ∧
  cfg.cmdRamwr ≠ cfg.cmdSlpout ∧ cfg.cmdRamwr ≠ cfg.cmdDispon

/-- The premises of a claim about panel content (R131): the panel is addressable, between transmissions and out of
reset, and the command numbers are apart. -/
def contentReady (s : State) : Prop :=
  s.panel.addressable = true ∧ s.pins.csN = true ∧ s.pins.rstN = true ∧ commandsApart s.cfg

/-- The host asserts no block reset in what it will drive. -/
def noReset (host : List HostIn) : Prop := ∀ h ∈ host, h.rstBlk = false

/-- A piece of a trace: one transmission, a write of RST_N, or a wait. -/
inductive Segment
  | tx8 (v : Byte) (isData : Bool)
  | tx16 (v : Half)
  | reset (l : Bool)
  | wait (ms : Nat)
  deriving DecidableEq, Repr

/-- The events of a piece. -/
def Segment.events : Segment → List Event
  | .tx8 v d => send 8 v d
  | .tx16 v => send 16 v true
  | .reset l => [.w .rstN l]
  | .wait ms => [.wait ms]

/-- `cur` explains what is pending (R24): the pending events are a suffix of the trace of the command in `cur`. -/
def pendingExplained (s : State) : Prop :=
  s.pending ≠ [] → ∃ i done, decode s.cur = .legal i ∧ traceOf s.cfg i = done ++ s.pending

/-- Once everything pending is performed the panel is deselected and out of reset (R79). -/
def endsDeselected (s : State) : Prop :=
  (s.pins.afterAll s.pending).csN = true ∧ (s.pins.afterAll s.pending).rstN = true

/-- Every listed address is a byte of a cell of the panel (R32, R50). -/
def memoryInRange (m : Memory) : Prop := ∀ c ∈ m, c.1 < 2 * (Config.panelW * Config.panelH)

/-- What holds of every state a run reaches from `State.reset`. -/
structure Inv (s : State) : Prop where
  cfgOk        : s.cfg.wf = true
  explained    : pendingExplained s
  deselected   : endsDeselected s
  memCanonical : Memory.wf s.panel.mem = true
  memRange     : memoryInRange s.panel.mem
  /-- The receiver model applies to a panel that was brought up, and to no other (R28, R131). -/
  modeUnknown  : s.panel.stage ≠ .ready → s.panel.mode = .unspecified

/-! ### The rules' own forms, as claims quote them -/

/-- One transmission as R71 lists it: select, DC, then for i from w − 1 down to 0 clock inactive, data, clock active,
then deselect. -/
def transmission (w : Nat) (v : BitVec w) (isData : Bool) : List Event :=
  [.w .csN false, .w .dc isData]
    ++ (List.range w).reverse.flatMap (fun i => [.w .sclk false, .w .sda (v.getLsbD i), .w .sclk true])
    ++ [.w .csN true]

/-- The bits of one frame, most significant first, each with its DC level (R73). -/
def frameOf (w : Nat) (v : BitVec w) (isData : Bool) : List Sample :=
  (List.range w).reverse.map (fun i => { dc := isData, sda := v.getLsbD i })

/-- The two data bytes of a 16-bit word, high byte first (R34). -/
def halfBytes (v : Half) : List WireByte := [.data (v.extractLsb' 8 8), .data (v.extractLsb' 0 8)]

/-- The seven transmissions of a window set (R89). -/
def windowTransmissions (cfg : Config) (xs ys xe ye : Half) : List Event :=
  transmission 8 cfg.cmdCaset false ++ transmission 16 xs true ++ transmission 16 xe true
    ++ transmission 8 cfg.cmdRaset false ++ transmission 16 ys true ++ transmission 16 ye true
    ++ transmission 8 cfg.cmdRamwr false

/-- The eleven bytes of a window set (R89, R93). -/
def windowBytes (cfg : Config) (xs ys xe ye : Half) : List WireByte :=
  [.cmd cfg.cmdCaset] ++ halfBytes xs ++ halfBytes xe ++ [.cmd cfg.cmdRaset] ++ halfBytes ys ++ halfBytes ye
    ++ [.cmd cfg.cmdRamwr]

/-- The must-be-zero bits of R60 are zero: RSV, every field R58 marks 0, and the high part of a narrow operand. -/
def mustBeZeroClear (o : Op) (w : CmdWord) : Prop :=
  fieldRsv w = 0 ∧
  match o with
  | .nop => fieldA w = 0 ∧ fieldB w = 0 ∧ fieldC w = 0 ∧ fieldD w = 0 ∧ fieldE w = 0
  | .sendCmd8 => (fieldA w).extractLsb' 8 8 = 0 ∧ fieldB w = 0 ∧ fieldC w = 0 ∧ fieldD w = 0 ∧ fieldE w = 0
  | .sendData8 => (fieldA w).extractLsb' 8 8 = 0 ∧ fieldB w = 0 ∧ fieldC w = 0 ∧ fieldD w = 0 ∧ fieldE w = 0
  | .sendData16 => fieldB w = 0 ∧ fieldC w = 0 ∧ fieldD w = 0 ∧ fieldE w = 0
  | .panelReset => fieldA w = 0 ∧ fieldB w = 0 ∧ fieldC w = 0 ∧ fieldD w = 0 ∧ fieldE w = 0
  | .delay => fieldB w = 0 ∧ fieldC w = 0 ∧ fieldD w = 0 ∧ fieldE w = 0
  | .init => (fieldA w).extractLsb' 2 14 = 0 ∧ fieldB w = 0 ∧ fieldC w = 0 ∧ fieldD w = 0 ∧ fieldE w = 0
  | .setWindow => fieldE w = 0
  | .drawPoint => fieldD w = 0 ∧ fieldE w = 0
  | .drawLine => True
  | .drawRect => True
  | .drawCircle => fieldE w = 0
  | .clear => fieldB w = 0 ∧ fieldC w = 0 ∧ fieldD w = 0 ∧ fieldE w = 0

/-- A word the port refuses. -/
def wordIllegal (w : CmdWord) : Bool :=
  match decode w with
  | .legal _ => false
  | .illegal _ => true

/-- The events of one line: 336 for each of its `distance + 1` points (R137). -/
def lineEvents (cfg : Config) (x1 y1 x2 y2 : Int) : Nat :=
  336 * ((lineDistance cfg.lineNegDy x1 y1 x2 y2).toNat + 1)

/-- The event counts of R137. -/
def eventCount (cfg : Config) (i : Instr) : Nat :=
  match i with
  | .nop => 0
  | .sendCmd8 _ => 27
  | .sendData8 _ => 27
  | .sendData16 _ => 51
  | .panelReset => 4
  | .delay _ => 1
  | .init _ =>
    4 + (cfg.initTable.map (fun e => 27 * (1 + e.params.length) + (if 0 < e.waitMs then 1 else 0))).sum
  | .setWindow _ _ _ _ => 285
  | .drawPoint _ _ _ => 336
  | .drawLine x1 y1 x2 y2 _ => lineEvents cfg (sext16 x1) (sext16 y1) (sext16 x2) (sext16 y2)
  | .drawRect x1 y1 x2 y2 _ =>
    lineEvents cfg (sext16 x1) (sext16 y1) (sext16 x2) (sext16 y1)
      + lineEvents cfg (sext16 x1) (sext16 y1) (sext16 x1) (sext16 y2)
      + lineEvents cfg (sext16 x1) (sext16 y2) (sext16 x2) (sext16 y2)
      + lineEvents cfg (sext16 x2) (sext16 y1) (sext16 x2) (sext16 y2)
  | .drawCircle _ _ r _ => 336 * 8 * (circlePasses (sext16 r)).length
  | .clear _ => 2937885

/-- The window of these bounds is valid (R43). -/
def boundsValid (x1 y1 x2 y2 : Half) : Prop :=
  x1.toNat ≤ x2.toNat ∧ x2.toNat ≤ 239 ∧ y1.toNat ≤ y2.toNat ∧ y2.toNat ≤ 239

/-- Cell (u, v) lies in the window of these bounds. -/
def inBounds (x1 y1 x2 y2 : Half) (u v : Nat) : Prop :=
  x1.toNat ≤ u ∧ u ≤ x2.toNat ∧ y1.toNat ≤ v ∧ v ≤ y2.toNat

/-- No cell of the frame memory can be read. -/
def frameLost (p : Panel) : Prop := ∀ x y, ∃ f, p.readCell x y = .error f

end Sys2Proof.Machine
end

