-- ==== Sys2Proof/Certificates/Slice0/Obligations.lean ====
section
/-! DEFINITION. The statements for the provers. Each docstring says which rule of the spec it formalises, or that it rests on an inference of the spec or on a log entry. -/

open Sys2Proof Sys2Proof.Machine

/-! ### Encoding -/

/-- R68 (marked there as derived): decoding the word of any command gives the command back, every operand at every
value. -/
def Obligations.DecodeOfEncodeIsIdentity : Prop := ∀ i : Instr, decode (encode i) = .legal i

/-- R68 (marked there as derived): encoding what a legal word decodes to gives the word back, so no two words are one
command. -/
def Obligations.EncodeOfDecodeIsIdentity : Prop :=
  ∀ (w : CmdWord) (i : Instr), decode w = .legal i → encode i = w

/-- R61: a word with a reserved opcode is illegal, whatever its other bits are (R67: the opcode is checked first). -/
def Obligations.ReservedOpcodesAreIllegal : Prop :=
  ∀ w : CmdWord, 0x0D ≤ (fieldOp w).toNat → decode w = .illegal (.reservedOpcode (fieldOp w))

/-- R60: a word with an assigned opcode is legal exactly when every must-be-zero bit is zero; else the decoder names
nonzero must-be-zero bits. -/
def Obligations.MustBeZeroBitsDecideLegality : Prop :=
  ∀ (w : CmdWord) (o : Op), fieldOp w = o.number →
    (mustBeZeroClear o w → ∃ i, i.op = o ∧ decode w = .legal i) ∧
    (¬ mustBeZeroClear o w → ∃ bits, bits ≠ 0 ∧ decode w = .illegal (.nonzeroReservedBits bits))

/-- R62: a word is legal exactly when it is a word of one row of the table and of no other. -/
def Obligations.LegalWordsAreOneRow : Prop :=
  ∀ w : CmdWord, (∃ i, decode w = .legal i) ↔ ∃! r : Row, r ∈ rows ∧ w &&& r.mask = r.value

/-- Words written out in 95_test_vectors.md decode to the commands they stand for (one of every family). -/
def Obligations.WrittenWordsDecode : Prop :=
  decode 0x000000000000000000000000#96 = .legal .nop ∧
  decode 0x000000000000000000002A01#96 = .legal (.sendCmd8 0x2A) ∧
  decode 0x00000000000000000000A502#96 = .legal (.sendData8 0xA5) ∧
  decode 0x000000000000000000F80003#96 = .legal (.sendData16 0xF800) ∧
  decode 0x000000000000000000000004#96 = .legal .panelReset ∧
  decode 0x000000000000000000007805#96 = .legal (.delay 120) ∧
  decode 0x000000000000000000000306#96 = .legal (.init 3) ∧
  decode 0x0000000015000B0014000A07#96 = .legal (.setWindow 10 20 11 21) ∧
  decode 0x00000000001234FFFFFFFF08#96 = .legal (.drawPoint 0xFFFF 0xFFFF 0x1234) ∧
  decode 0x00F800000100030000000009#96 = .legal (.drawLine 0 0 3 1 0xF800) ∧
  decode 0x0007E000020000000000030A#96 = .legal (.drawRect 3 0 0 2 0x07E0) ∧
  decode 0x000000FFFF0002000A000A0B#96 = .legal (.drawCircle 10 10 2 0xFFFF) ∧
  decode 0x00000000000000000007E00C#96 = .legal (.clear 0x07E0)

/-- R45, with R6 and R58: the wire form of a coordinate is its value mod 2^16, and a field read signed or unsigned goes
back on the wire as the field. -/
def Obligations.CoordinatesGoOutModTwoToTheSixteen : Prop :=
  (∀ v : Int, ((low16 v).toNat : Int) = v % 65536) ∧
  (∀ f : Half, low16 (sext16 f) = f ∧ low16 (zext16 f) = f ∧ -32768 ≤ sext16 f ∧ sext16 f ≤ 32767)

/-- R64 (D41): assembling the statement of a command gives the command, so every operand in range is encoded as
written. -/
def Obligations.AssemblerEncodesEveryOperand : Prop := ∀ i : Instr, assembleStmt (disassemble i) = .ok [i]

/-- R65: each pseudo-instruction expands to the commands the rule lists. -/
def Obligations.PseudoInstructionsExpand : Prop :=
  (∀ (c : Byte) (ps : List Byte),
    assembleStmt { mnemonic := "PANEL_CMD", operands := (c.toNat : Int) :: ps.map (fun p => (p.toNat : Int)) }
      = .ok (.sendCmd8 c :: ps.map (fun p => .sendData8 p))) ∧
  (∀ c : Half, assembleStmt { mnemonic := "PIXEL", operands := [(c.toNat : Int)] } = .ok [.sendData16 c]) ∧
  (∀ x1 x2 y c : Half,
    assembleStmt { mnemonic := "HLINE", operands := [x1.toInt, x2.toInt, y.toInt, (c.toNat : Int)] }
      = .ok [.drawLine x1 y x2 y c]) ∧
  (∀ x y1 y2 c : Half,
    assembleStmt { mnemonic := "VLINE", operands := [x.toInt, y1.toInt, y2.toInt, (c.toNat : Int)] }
      = .ok [.drawLine x y1 x y2 c])

/-- R84: a table meets its four constraints exactly when it is made of the parts the model's reset configuration leaves
open (log entry 2), so those parts lose no table and add none. -/
def Obligations.AdmittedTablesAreTheBuiltOnes : Prop :=
  ∀ cfg : Config, 0 < cfg.ticksPerMs →
    (cfg.wf = true ↔ ∃ parts : Config.InitParts, cfg.initTable = cfg.buildTable parts)

/-! ### Reset, status, acceptance, events -/

/-- R28: the state after block reset, for every value the rule gives (`cur` is log entry 4 and is not stated). -/
def Obligations.StateAfterReset : Prop :=
  State.reset.pins.sclk = false ∧ State.reset.pins.sda = false ∧ State.reset.pins.csN = true ∧
  State.reset.pins.dc = false ∧ State.reset.pins.rstN = true ∧ State.reset.busy = false ∧
  State.reset.illegal = false ∧ State.reset.pending = [] ∧ State.reset.cmdReady = true ∧ State.reset.status = 0

/-- R20: bit 0 of STATUS is BUSY, which is pending ≠ [ ]; bit 1 is ILLEGAL, which an accepted illegal word sets, which
sticks, and which only block reset clears; both are 0 after reset. -/
def Obligations.StatusIsBusyAndStickyIllegal : Prop :=
  (∀ s : State, (s.status.getLsbD 0 = true ↔ s.pending ≠ []) ∧ s.status.getLsbD 1 = s.illegal) ∧
  State.reset.status = 0 ∧
  (∀ s t : State, step s = .next t →
    t.illegal =
      if s.rstBlk then false
      else s.illegal || (s.pending.isEmpty && (s.offered.map wordIllegal).getD false))

/-- R25: `CMD_READY`; an offered word is accepted exactly when the block is ready, a legal one becomes `cur` and its
trace becomes pending, an illegal one raises Illegal; a word offered while the block is busy waits at the port. -/
def Obligations.AcceptanceFollowsTheHandshake : Prop :=
  ∀ s : State,
    (s.cmdReady = true ↔ s.rstBlk = false ∧ s.pending = []) ∧
    (∀ w, s.cmdReady = true → s.offered = some w →
      (∀ i, decode w = .legal i →
        step s = .next { s with cur := w, pending := traceOf s.cfg i, host := s.host.tail }) ∧
      (∀ why, decode w = .illegal why →
        step s = .next { s with illegal := true, pending := [], host := s.host.tail })) ∧
    (∀ w, s.rstBlk = false → s.pending ≠ [] → s.offered = some w →
      ∃ t, step s = .next t ∧ t.offered = some w ∧ t.cur = s.cur ∧ t.pending = s.pending.tail) ∧
    (s.rstBlk = false → s.pending = [] → s.offered = none →
      ∃ t, step s = .next t ∧ t.pins = s.pins ∧ t.status = s.status ∧ t.cur = s.cur ∧ t.panel = s.panel)

/-- A step runs the decoded command: when an idle block is offered a word that decodes to `i`, the step is `exec i` on
the state with the word latched (R25, R53) and taken from the port. -/
def Obligations.StepRunsTheDecodedCommand : Prop :=
  (∀ (s : State) (w : CmdWord) (i : Instr) (rest : List HostIn),
    s.pending = [] → s.host = { rstBlk := false, offer := some w } :: rest → decode w = .legal i →
    step s = exec i { s with cur := w, host := rest }) ∧
  (∀ (s : State) (nbits w : Nat) (i : Instr), decodeTableWord nbits w = some i →
    step (s.withFetchWord nbits w) = exec i { s with cur := BitVec.ofNat 96 (w % 2 ^ nbits), pending := [] })

/-- R113: an illegal word sets ILLEGAL and does nothing else: no event, no pin, `cur` not updated, BUSY 0, ready for the
next word at once. -/
def Obligations.IllegalWordRaisesIllegal : Prop :=
  ∀ (s : State) (w : CmdWord) (why : Illegal) (rest : List HostIn),
    s.pending = [] → s.host = { rstBlk := false, offer := some w } :: rest → decode w = .illegal why →
    ∃ t, step s = .next t ∧ t.illegal = true ∧ t.pending = [] ∧ t.busy = false ∧ t.cur = s.cur ∧ t.pins = s.pins ∧
      t.host = rest ∧ t.panel = s.panel ∧ t.cfg = s.cfg ∧ (t.rstBlk = false → t.cmdReady = true)

/-- R119: ILLEGAL stays 1 through every step but a block reset, and a second illegal word changes no state but the
port. -/
def Obligations.IllegalSticksUntilBlockReset : Prop :=
  (∀ s t : State, s.rstBlk = false → s.illegal = true → step s = .next t → t.illegal = true) ∧
  (∀ (s : State) (w : CmdWord) (why : Illegal) (rest : List HostIn),
    s.illegal = true → s.pending = [] → s.host = { rstBlk := false, offer := some w } :: rest →
    decode w = .illegal why → step s = .next { s with host := rest }) ∧
  (∀ s : State, s.rstBlk = true → ∃ t, step s = .next t ∧ t.illegal = false)

/-- R26: performing `W(p, l)` sets pin p to l and no other pin; performing `WAIT(n)` holds all pins; either takes the
event off `pending`, and nothing else of the block changes. -/
def Obligations.PerformingOneEvent : Prop :=
  ∀ (s : State) (e : Event) (rest : List Event), s.rstBlk = false → s.pending = e :: rest →
    ∃ t, step s = .next t ∧ t.pending = rest ∧ t.cur = s.cur ∧ t.illegal = s.illegal ∧ t.cfg = s.cfg ∧
      (∀ q, t.pins.get q =
        match e with
        | .w p l => if q = p then l else s.pins.get q
        | .wait _ => s.pins.get q)

/-- R126 (and the first item of R117): with `RST_BLK` = 1 every SDE state takes its reset value, whatever was pending or
offered; no command is accepted and no event is performed; at the first edge without reset it is ready. That an offered
word is still offered after the reset edge is the model's choice (log entry 6, DESIGN CHOICE), not R126's. -/
def Obligations.BlockResetSetsEveryResetValue : Prop :=
  ∀ s : State, s.rstBlk = true →
    s.cmdReady = false ∧ s.nextEvent = none ∧
    ∃ t, step s = .next t ∧
      t.pins = { sclk := false, sda := false, csN := true, dc := false, rstN := true } ∧
      t.pending = [] ∧ t.busy = false ∧ t.illegal = false ∧ t.cfg = s.cfg ∧
      (∀ w, s.offered = some w → t.offered = some w) ∧
      (t.rstBlk = false → t.cmdReady = true)

/-- R127, its first two sentences, and U4 with R131 (log entry 13): a block reset after `k` events leaves exactly the
first `k` events performed and the rest discarded; the panel is no longer known to be addressable, and if a transmission
was cut its frame memory is lost. -/
def Obligations.BlockResetCutsTheTraceToAPrefix : Prop :=
  ∀ (s : State) (k : Nat), k ≤ s.pending.length →
    s.host = List.replicate k { rstBlk := false, offer := none } ++ [{ rstBlk := true, offer := none }] →
    performed (k + 1) s = s.pending.take k ∧
    ∃ t, runSteps (k + 1) s = .next t ∧ t.pending = [] ∧ t.pins = Pins.reset ∧ t.illegal = false ∧
      t.panel.addressable = false ∧
      ((s.pins.afterAll (s.pending.take k)).csN = false → frameLost t.panel)

/-- R115: no step faults and none is refused, from any state. -/
def Obligations.EveryStepAnswersANextState : Prop := ∀ s : State, ∃ t, step s = .next t

/-- R27: no step changes the configuration. -/
def Obligations.ConfigurationNeverChanges : Prop := ∀ s t : State, step s = .next t → t.cfg = s.cfg

/-- The invariant holds after reset, for every INIT_TABLE the open parts make (log entry 2). -/
def Obligations.InvariantHoldsAfterReset : Prop := Inv State.reset

/-- Every step keeps the invariant: a configuration R84 admits; what is pending is a suffix of the trace of the command
in `cur` (R24); once it is performed the panel is deselected and out of reset (R79), so between commands it is; the
frame memory stays canonical and inside the panel (log entry 8); the mode of a panel that was not brought up is unspecified
(R28, R131). -/
def Obligations.EveryStepKeepsTheInvariant : Prop := ∀ s t : State, Inv s → step s = .next t → Inv t

/-- R30: a host program runs to its end, and what is observed of it is the traces of its words in order (an illegal word
contributes nothing), the levels they leave, and STATUS. -/
def Obligations.HostProgramIsObservedAsItsTraces : Prop :=
  ∀ (s : State) (ws : List CmdWord), s.pending = [] → s.host = hostProgram ws →
    (∃ t, runSteps (programSteps s.cfg ws) s = .next t ∧ t.busy = false ∧ t.host = []) ∧
    observeRun (programSteps s.cfg ws) s =
      some { trace := ws.flatMap (wordTrace s.cfg),
             pins := s.pins.afterAll (ws.flatMap (wordTrace s.cfg)),
             status := BitVec.ofBool (s.illegal || ws.any wordIllegal) ++ (0#1) }

/-- R112: the block has no input from the panel: two states that differ in the panel only step to states that differ in
the panel only. -/
def Obligations.PanelNeverReachesTheBlock : Prop :=
  ∀ (s t t' : State) (p : Panel), step s = .next t → step { s with panel := p } = .next t' →
    t' = { t with panel := t'.panel }

/-- R47 with R77: the trace of every command is whole transmissions, writes of RST_N and waits, one after another, so
nothing is ever performed inside a transmission but its own events. -/
def Obligations.TracesAreWholeTransmissions : Prop :=
  ∀ (cfg : Config) (i : Instr), ∃ segs : List Segment, traceOf cfg i = segs.flatMap Segment.events

/-- Every command completes its acceptance from every state, with the number of events R137 counts (marked there as
derived), and its frame: no pin, no STATUS.ILLEGAL, no `cur`, no port, no configuration, nothing of the panel and no
cell of the frame memory changes until its events are performed. -/
def Obligations.EveryCommandPendsItsEventsAndChangesNothingElse : Prop :=
  ∀ (i : Instr) (s : State), ∃ t, exec i s = .next t ∧ t.pending.length = eventCount s.cfg i ∧
    (t.busy = true ↔ eventCount s.cfg i ≠ 0) ∧
    t.pins = s.pins ∧ t.illegal = s.illegal ∧ t.cur = s.cur ∧ t.host = s.host ∧ t.cfg = s.cfg ∧ t.free = s.free ∧
    t.panel = s.panel ∧ (∀ x y, t.panel.readCell x y = s.panel.readCell x y) ∧
    (∀ a, Memory.read t.panel.mem a = Memory.read s.panel.mem a)

/-! ### BitLink -/

/-- R71: `Send(v, w, isData)` is the listed events in the listed order, 3·w + 3 of them, and leaves CS_N = 1, SCLK = 1,
SDA = v[0], DC = isData and RST_N as it was. -/
def Obligations.SendIsTheListedEvents : Prop :=
  ∀ (w : Nat) (v : BitVec w) (isData : Bool), w = 8 ∨ w = 16 →
    send w v isData = transmission w v isData ∧ (send w v isData).length = 3 * w + 3 ∧
    ∀ p : Pins, p.afterAll (send w v isData)
      = { sclk := true, sda := v.getLsbD 0, csN := true, dc := isData, rstN := p.rstN }

/-- R73 (marked there as derived): from a deselected panel, at any SCLK level, a transmission is sampled as exactly one
frame of w bits, most significant first, each with DC = isData. -/
def Obligations.SendIsSampledMostSignificantBitFirst : Prop :=
  ∀ (w : Nat) (v : BitVec w) (isData : Bool) (p : Pins), p.csN = true →
    wireFrames p (send w v isData) = [frameOf w v isData]

/-- The three SEND commands complete from every state with the one transmission of R74, R75, R76 pending, and the panel
reads from it the byte or the two bytes sent. -/
def Obligations.SendCommandsSendOneWord : Prop :=
  (∀ (v : Byte) (s : State), exec (.sendCmd8 v) s = .next { s with pending := transmission 8 v false }) ∧
  (∀ (v : Byte) (s : State), exec (.sendData8 v) s = .next { s with pending := transmission 8 v true }) ∧
  (∀ (v : Half) (s : State), exec (.sendData16 v) s = .next { s with pending := transmission 16 v true }) ∧
  (∀ (p : Pins), p.csN = true →
    (∀ v : Byte, byteStream p (transmission 8 v false) = [.cmd v]) ∧
    (∀ v : Byte, byteStream p (transmission 8 v true) = [.data v]) ∧
    (∀ v : Half, byteStream p (transmission 16 v true) = halfBytes v))

/-- R34 (marked there as derived): a 16-bit word gives the receiver the bytes that two 8-bit data transmissions of its
high and its low byte give. -/
def Obligations.HalfWordIsItsTwoBytes : Prop :=
  ∀ (p : Pins) (v : Half), p.csN = true →
    byteStream p (sendHalf v) = byteStream p (sendByte (v.extractLsb' 8 8) ++ sendByte (v.extractLsb' 0 8))

/-! ### NOP, reset pulse, wait, INIT -/

/-- NOP, PANEL_RESET and DELAY complete from every state with the traces of R78, R79, R80 pending; an accepted NOP
changes no pin and no STATUS; none of the three writes CS_N, DC, SCLK or SDA. -/
def Obligations.NopResetPulseAndDelay : Prop :=
  (∀ s : State, exec .nop s = .next { s with pending := [] }) ∧
  (∀ s : State, exec .panelReset s
    = .next { s with pending := [.w .rstN false, .wait 20, .w .rstN true, .wait 120] }) ∧
  (∀ (ms : Half) (s : State), exec (.delay ms) s = .next { s with pending := [.wait ms.toNat] }) ∧
  (∀ (s : State) (rest : List HostIn), s.pending = [] →
    s.host = { rstBlk := false, offer := some 0 } :: rest →
    ∃ t, step s = .next t ∧ t.pins = s.pins ∧ t.status = s.status ∧ t.pending = [])

/-- INIT completes from every state (R81, R82): the reset pulse, then for each entry in table order one command
transmission, one data transmission per parameter byte with the orientation byte put in its place, and its wait if it
is not zero; under a table R84 admits it ends with sleep-out, 120 ms, display-on, 20 ms. -/
def Obligations.InitSendsThePulseAndTheTable : Prop :=
  ∀ (orient : BitVec 2) (s : State),
    exec (.init orient) s = .next { s with
      pending :=
        [.w .rstN false, .wait 20, .w .rstN true, .wait 120] ++
        s.cfg.initTable.flatMap (fun e =>
          transmission 8 e.cmd false ++
          e.params.flatMap (fun p =>
            transmission 8 (match p with | .lit b => b | .orient => madctlParam s.cfg orient) true) ++
          (if e.waitMs = 0 then [] else [.wait e.waitMs])) } ∧
    (s.cfg.wf = true → ∃ front, traceInit s.cfg orient =
      front ++ (transmission 8 s.cfg.cmdSlpout false ++ [.wait 120]
        ++ transmission 8 s.cfg.cmdDispon false ++ [.wait 20]))

/-- R81 with R84 (a): the orientation changes one byte of INIT's trace and nothing else. -/
def Obligations.OrientationChangesOneByteOfInit : Prop :=
  ∀ cfg : Config, cfg.wf = true →
    (∃ front back, ∀ orient, traceInit cfg orient = front ++ sendByte (madctlParam cfg orient) ++ back) ∧
    madctlParam cfg 0 = cfg.madctl0 ∧ madctlParam cfg 1 = cfg.madctl1 ∧
    madctlParam cfg 2 = cfg.madctl2 ∧ madctlParam cfg 3 = cfg.madctl3

/-- R87, an assumption of the spec about the panel (log entry 12): when an accepted INIT has been performed to its last
event the panel is addressable, deselected and out of reset, from whatever state INIT started. -/
def Obligations.InitLeavesThePanelAddressable : Prop :=
  ∀ (s : State) (orient : BitVec 2), s.cfg.wf = true → s.pending = [] →
    s.host = hostProgram [encode (.init orient)] →
    ∃ t, runSteps (1 + (traceInit s.cfg orient).length) s = .next t ∧ t.pending = [] ∧
      t.panel.addressable = true ∧ t.pins.csN = true ∧ t.pins.rstN = true

/-- The model's choice (log entries 10 and 11, DEDUCED) of what R129's substitute for INIT takes: the reset pulse,
sleep-out with at least 120 ms and display-on with at least 20 ms, sent by the host itself, are enough to leave the panel
addressable. R129 does not say that the orientation and pixel-format commands can be left out. -/
def Obligations.HostBuiltBootLeavesThePanelAddressable : Prop :=
  ∀ (s : State) (n m : Half), s.cfg.cmdSlpout ≠ s.cfg.cmdDispon → 120 ≤ n.toNat → 20 ≤ m.toNat →
    s.pending = [] → s.pins.csN = true → s.pins.rstN = true →
    s.host = hostProgram [encode .panelReset, encode (.sendCmd8 s.cfg.cmdSlpout), encode (.delay n),
      encode (.sendCmd8 s.cfg.cmdDispon), encode (.delay m)] →
    ∃ t, runSteps (programSteps s.cfg [encode .panelReset, encode (.sendCmd8 s.cfg.cmdSlpout), encode (.delay n),
        encode (.sendCmd8 s.cfg.cmdDispon), encode (.delay m)]) s = .next t ∧ t.panel.addressable = true

/-- R133, U5 (log entry 11): sleep-out or display-on sent to an addressable panel obliges the host to its wait: with it
the panel is addressable again, without it the next transmission loses the panel. The last clause is the model's choice
(log entry 29, DEDUCED): of a panel that is not addressable any transmission leaves no cell readable and no mode known.
The spec calls such a panel's state unspecified (R88, R131, U12) and does not say which part of it. -/
def Obligations.MissedWaitLosesThePanel : Prop :=
  (∀ (s : State) (n : Nat), contentReady s → s.cfg.cmdSlpout ≠ s.cfg.cmdDispon →
    ((s.performAll (sendCmd s.cfg.cmdSlpout ++ [.wait n])).panel.addressable = decide (120 ≤ n)) ∧
    ((s.performAll (sendCmd s.cfg.cmdDispon ++ [.wait n])).panel.addressable = decide (20 ≤ n)) ∧
    (n < 120 → ∀ v d,
      (s.performAll (sendCmd s.cfg.cmdSlpout ++ [.wait n] ++ send 8 v d)).panel.addressable = false ∧
      frameLost (s.performAll (sendCmd s.cfg.cmdSlpout ++ [.wait n] ++ send 8 v d)).panel) ∧
    (n < 20 → ∀ v d,
      (s.performAll (sendCmd s.cfg.cmdDispon ++ [.wait n] ++ send 8 v d)).panel.addressable = false ∧
      frameLost (s.performAll (sendCmd s.cfg.cmdDispon ++ [.wait n] ++ send 8 v d)).panel)) ∧
  (∀ s : State, s.panel.addressable = false → s.pins.csN = true →
    (∀ v d, frameLost (s.performAll (send 8 v d)).panel ∧ (s.performAll (send 8 v d)).panel.mode = .unspecified) ∧
    (∀ v, frameLost (s.performAll (sendHalf v)).panel ∧ (s.performAll (sendHalf v)).panel.mode = .unspecified))

/-! ### Address window -/

/-- R89: `Window` is the trace of seven transmissions in the rule's order, x bounds before y bounds, start before end,
each bound as its low 16 bits, 285 events. -/
def Obligations.WindowIsSevenTransmissions : Prop :=
  ∀ (cfg : Config) (xs ys xe ye : Int),
    window cfg xs ys xe ye
      = transmission 8 cfg.cmdCaset false ++ transmission 16 (BitVec.ofInt 16 xs) true
        ++ transmission 16 (BitVec.ofInt 16 xe) true
        ++ transmission 8 cfg.cmdRaset false ++ transmission 16 (BitVec.ofInt 16 ys) true
        ++ transmission 16 (BitVec.ofInt 16 ye) true
        ++ transmission 8 cfg.cmdRamwr false ∧
    (window cfg xs ys xe ye).length = 285

/-- SET_WINDOW (R90) completes from every state with the window set of its raw bounds pending, and a deselected panel
reads from it the eleven bytes of R93 (marked there as derived). -/
def Obligations.SetWindowSendsItsBounds : Prop :=
  (∀ (xs ys xe ye : Half) (s : State),
    exec (.setWindow xs ys xe ye) s = .next { s with pending := windowTransmissions s.cfg xs ys xe ye }) ∧
  (∀ (cfg : Config) (xs ys xe ye : Half) (p : Pins), p.csN = true →
    byteStream p (windowTransmissions cfg xs ys xe ye) = windowBytes cfg xs ys xe ye)

/-- R92 (marked there as derived): a valid window set on a panel that content claims may be made of, followed by exactly
as many words as it has cells, writes word k to cell (x1 + k mod W, y1 + k div W), and no cell outside the window. -/
def Obligations.PixelStreamCoversTheWindow : Prop :=
  ∀ (s : State) (x1 y1 x2 y2 : Half) (cs : List Half), contentReady s → boundsValid x1 y1 x2 y2 →
    cs.length = (x2.toNat - x1.toNat + 1) * (y2.toNat - y1.toNat + 1) →
    ∀ u v,
      (inBounds x1 y1 x2 y2 u v →
        ∃ c, cs[(v - y1.toNat) * (x2.toNat - x1.toNat + 1) + (u - x1.toNat)]? = some c ∧
          (s.performAll (traceSetWindow s.cfg x1 y1 x2 y2 ++ cs.flatMap sendHalf)).panel.readCell u v = .ok c) ∧
      (¬ inBounds x1 y1 x2 y2 u v →
        (s.performAll (traceSetWindow s.cfg x1 y1 x2 y2 ++ cs.flatMap sendHalf)).panel.readCell u v
          = s.panel.readCell u v)

/-- R43, U2: a window that is not valid loses the whole frame memory as soon as it is set. -/
def Obligations.InvalidWindowLosesTheFrameMemory : Prop :=
  ∀ (s : State) (x1 y1 x2 y2 : Half), contentReady s → ¬ boundsValid x1 y1 x2 y2 →
    frameLost (s.performAll (traceSetWindow s.cfg x1 y1 x2 y2)).panel

/-- R41, U1: one word more than a valid window has cells loses the whole frame memory. -/
def Obligations.ExhaustedWindowLosesTheFrameMemory : Prop :=
  ∀ (s : State) (x1 y1 x2 y2 : Half) (cs : List Half), contentReady s → boundsValid x1 y1 x2 y2 →
    cs.length = (x2.toNat - x1.toNat + 1) * (y2.toNat - y1.toNat + 1) + 1 →
    frameLost (s.performAll (traceSetWindow s.cfg x1 y1 x2 y2 ++ cs.flatMap sendHalf)).panel

/-! ### Points and lines -/

/-- R94: `PointTrace(x, y, c)` is the one-pixel window and the colour word, 336 events; DRAW_POINT (R95) completes from
every state with it pending, its coordinates going out as their fields. -/
def Obligations.DrawPointSendsWindowAndColour : Prop :=
  (∀ (cfg : Config) (x y : Int) (c : Half),
    pointTrace cfg c (x, y) = window cfg x y x y ++ transmission 16 c true ∧
    (pointTrace cfg c (x, y)).length = 336) ∧
  (∀ (x y c : Half) (s : State),
    exec (.drawPoint x y c) s
      = .next { s with pending := windowTransmissions s.cfg x y x y ++ transmission 16 c true })

/-- R95, its corner case (marked there as derived): on a panel that content claims may be made of, an accepted
DRAW_POINT at a cell of the panel writes that cell with the colour and leaves every other cell as it was. -/
def Obligations.DrawPointWritesItsCellOnly : Prop :=
  ∀ (s : State) (x y c : Half), contentReady s → s.pending = [] → s.host = hostProgram [encode (.drawPoint x y c)] →
    x.toNat < 240 → y.toNat < 240 →
    ∃ t, runSteps 337 s = .next t ∧ t.pending = [] ∧
      ∀ u v, t.panel.readCell u v = if u = x.toNat ∧ v = y.toNat then .ok c else s.panel.readCell u v

/-- R107: after two draws of lists of points on the panel each cell has the colour of the last word written to it, and a
cell no point reached is as it was. -/
def Obligations.LastWriteWins : Prop :=
  ∀ (s : State) (l1 l2 : List (Int × Int)) (c1 c2 : Half), contentReady s →
    (∀ p ∈ l1, onPanel p) → (∀ p ∈ l2, onPanel p) →
    ∀ u v : Nat,
      (((u : Int), (v : Int)) ∈ l2 →
        (s.performAll (pointsTrace s.cfg l1 c1 ++ pointsTrace s.cfg l2 c2)).panel.readCell u v = .ok c2) ∧
      (((u : Int), (v : Int)) ∉ l2 → ((u : Int), (v : Int)) ∈ l1 →
        (s.performAll (pointsTrace s.cfg l1 c1 ++ pointsTrace s.cfg l2 c2)).panel.readCell u v = .ok c1) ∧
      (((u : Int), (v : Int)) ∉ l2 → ((u : Int), (v : Int)) ∉ l1 →
        (s.performAll (pointsTrace s.cfg l1 c1 ++ pointsTrace s.cfg l2 c2)).panel.readCell u v
          = s.panel.readCell u v)

/-- DRAW_LINE completes from every state (R98) with one window set and one colour word pending for each point of the
line engine, in plotting order, no point merged or left out (R106). -/
def Obligations.DrawLineSendsItsPoints : Prop :=
  ∀ (x1 y1 x2 y2 c : Half) (s : State),
    exec (.drawLine x1 y1 x2 y2 c) s = .next { s with
      pending := (linePoints s.cfg.lineCmp s.cfg.lineNegDy x1.toInt y1.toInt x2.toInt y2.toInt).flatMap
        (fun p => windowTransmissions s.cfg (low16 p.1) (low16 p.2) (low16 p.1) (low16 p.2)
          ++ transmission 16 c true) }

/-- R99 (marked there as derived), for every mode: `distance` is not negative, there are `distance` + 1 points, and the
first is (x1, y1). -/
def Obligations.LineStartsAtItsFirstPoint : Prop :=
  ∀ (cmp : LineCmp) (neg : LineNegDy) (x1 y1 x2 y2 : Int),
    0 ≤ lineDistance neg x1 y1 x2 y2 ∧
    ((linePoints cmp neg x1 y1 x2 y2).length : Int) = lineDistance neg x1 y1 x2 y2 + 1 ∧
    (linePoints cmp neg x1 y1 x2 y2).head? = some (x1, y1)

/-- What R96 computes under GE when the negative-dy defect does not apply (an inference of this model from R96): point k
is each coordinate moved by its unit step ⌊k·|delta| / distance⌋ times. -/
def Obligations.LinePointsClosedForm : Prop :=
  ∀ (neg : LineNegDy) (x1 y1 x2 y2 : Int) (k : Nat), y1 ≤ y2 ∨ neg = .vertical →
    0 < max (x2 - x1).natAbs (y2 - y1).natAbs → k ≤ max (x2 - x1).natAbs (y2 - y1).natAbs →
    (linePoints .ge neg x1 y1 x2 y2)[k]? =
      some (x1 + unitStep (x2 - x1) * ((k * (x2 - x1).natAbs / max (x2 - x1).natAbs (y2 - y1).natAbs : Nat) : Int),
            y1 + unitStep (y2 - y1) * ((k * (y2 - y1).natAbs / max (x2 - x1).natAbs (y2 - y1).natAbs : Nat) : Int))

/-- R99 (marked there as derived), under GE with y2 ≥ y1 or VERTICAL: max(|x2 − x1|, |y2 − y1|) + 1 points, the last is
(x2, y2), all distinct, and each step moves one unit along the major axis. -/
def Obligations.LineReachesItsLastPoint : Prop :=
  ∀ (neg : LineNegDy) (x1 y1 x2 y2 : Int), y1 ≤ y2 ∨ neg = .vertical →
    (linePoints .ge neg x1 y1 x2 y2).length = max (x2 - x1).natAbs (y2 - y1).natAbs + 1 ∧
    (linePoints .ge neg x1 y1 x2 y2).getLast? = some (x2, y2) ∧
    (linePoints .ge neg x1 y1 x2 y2).Nodup ∧
    (∀ k p q, (linePoints .ge neg x1 y1 x2 y2)[k]? = some p → (linePoints .ge neg x1 y1 x2 y2)[k + 1]? = some q →
      ((y2 - y1).natAbs ≤ (x2 - x1).natAbs → q.1 = p.1 + unitStep (x2 - x1)) ∧
      ((x2 - x1).natAbs ≤ (y2 - y1).natAbs → q.2 = p.2 + unitStep (y2 - y1)))

/-- R99 (marked there as derived), under GT with distance > 0 and y2 ≥ y1 or VERTICAL: (x1, y1) is plotted twice and
(x2, y2) never. -/
def Obligations.GtDropsTheLastPoint : Prop :=
  ∀ (neg : LineNegDy) (x1 y1 x2 y2 : Int), y1 ≤ y2 ∨ neg = .vertical →
    0 < lineDistance neg x1 y1 x2 y2 →
    (linePoints .gt neg x1 y1 x2 y2)[0]? = some (x1, y1) ∧ (linePoints .gt neg x1 y1 x2 y2)[1]? = some (x1, y1) ∧
    (x2, y2) ∉ linePoints .gt neg x1 y1 x2 y2

/-- R98, its corner case: with y2 < y1 under HORIZONTAL_MAG and GE the line runs |x2 − x1| diagonal steps and ends at
(x2, y1 − |x2 − x1|); a vertical one plots (x1, y1) only. -/
def Obligations.NegativeDyDefectRunsDiagonally : Prop :=
  ∀ x1 y1 x2 y2 : Int, y2 < y1 →
    linePoints .ge .horizontalMag x1 y1 x2 y2
      = (List.range ((x2 - x1).natAbs + 1)).map
          (fun k : Nat => (x1 + unitStep (x2 - x1) * (k : Int), y1 - (k : Int))) ∧
    (x1 = x2 → linePoints .ge .horizontalMag x1 y1 x2 y2 = [(x1, y1)])

/-- R98, its corner case (S3): a line from a point to itself is the point, in every mode. -/
def Obligations.DegenerateLineIsThePoint : Prop :=
  ∀ (x y c : Half) (s : State), exec (.drawLine x y x y c) s = exec (.drawPoint x y c) s

/-! ### Rectangles and circles -/

/-- DRAW_RECT completes from every state (R100) with the traces of four DRAW_LINE commands pending, top, left, bottom,
right, each edge running from the (x1, y1) side. -/
def Obligations.DrawRectIsFourLines : Prop :=
  ∀ (x1 y1 x2 y2 c : Half) (s : State), ∃ top left bottom right,
    exec (.drawLine x1 y1 x2 y1 c) s = .next { s with pending := top } ∧
    exec (.drawLine x1 y1 x1 y2 c) s = .next { s with pending := left } ∧
    exec (.drawLine x1 y2 x2 y2 c) s = .next { s with pending := bottom } ∧
    exec (.drawLine x2 y1 x2 y2 c) s = .next { s with pending := right } ∧
    exec (.drawRect x1 y1 x2 y2 c) s = .next { s with pending := top ++ left ++ bottom ++ right }

/-- R100, its corner cases (marked there as derived): under GE all four corners are plotted in every mode, and for
y1 < y2 and x1 ≠ x2 each of them exactly twice. -/
def Obligations.RectanglePlotsItsCorners : Prop :=
  ∀ (cfg : Config) (x1 y1 x2 y2 : Int), cfg.lineCmp = .ge →
    ((x1, y1) ∈ rectPoints cfg x1 y1 x2 y2 ∧ (x2, y1) ∈ rectPoints cfg x1 y1 x2 y2 ∧
      (x1, y2) ∈ rectPoints cfg x1 y1 x2 y2 ∧ (x2, y2) ∈ rectPoints cfg x1 y1 x2 y2) ∧
    (y1 < y2 → x1 ≠ x2 →
      (rectPoints cfg x1 y1 x2 y2).count (x1, y1) = 2 ∧ (rectPoints cfg x1 y1 x2 y2).count (x2, y1) = 2 ∧
      (rectPoints cfg x1 y1 x2 y2).count (x1, y2) = 2 ∧ (rectPoints cfg x1 y1 x2 y2).count (x2, y2) = 2)

/-- DRAW_CIRCLE completes from every state (R103) with the eight points of R102 pending for each pass, in its order; a
negative radius leaves nothing pending and radius 0 plots the centre eight times. -/
def Obligations.DrawCircleSendsItsOctants : Prop :=
  (∀ (x0 y0 r c : Half) (s : State),
    exec (.drawCircle x0 y0 r c) s = .next { s with
      pending := ((circlePasses r.toInt).flatMap (fun ab =>
          [(x0.toInt + ab.2, y0.toInt + ab.1), (x0.toInt + ab.2, y0.toInt - ab.1),
           (x0.toInt - ab.2, y0.toInt + ab.1), (x0.toInt - ab.2, y0.toInt - ab.1),
           (x0.toInt + ab.1, y0.toInt + ab.2), (x0.toInt + ab.1, y0.toInt - ab.2),
           (x0.toInt - ab.1, y0.toInt + ab.2), (x0.toInt - ab.1, y0.toInt - ab.2)])).flatMap
        (fun p => windowTransmissions s.cfg (low16 p.1) (low16 p.2) (low16 p.1) (low16 p.2)
          ++ transmission 16 c true) }) ∧
  (∀ r : Int, r < 0 → circlePasses r = []) ∧
  (∀ x0 y0 : Int, circlePoints x0 y0 0 = List.replicate 8 (x0, y0))

/-- R104 (marked there as derived): the passes of radius r ≥ 0 are a = 0, 1, 2, …, as long as a ≤ ⌊√(r² − a²)⌋, each
with b = ⌊√(r² − a²)⌋. -/
def Obligations.CirclePassesAreIntegerSquareRoots : Prop :=
  ∀ r : Nat, circlePasses (r : Int)
    = (List.range (Nat.sqrt (r * r / 2) + 1)).map (fun a : Nat => ((a : Int), ((Nat.sqrt (r * r - a * a) : Nat) : Int)))

/-- R104 (marked there as derived): every plotted point lies at a distance d from the centre with r − 1 < d ≤ r. -/
def Obligations.CirclePointsLieOnTheCircle : Prop :=
  ∀ x0 y0 r x y : Int, (x, y) ∈ circlePoints x0 y0 r →
    (x - x0) * (x - x0) + (y - y0) * (y - y0) ≤ r * r ∧
    (r = 0 ∨ (r - 1) * (r - 1) < (x - x0) * (x - x0) + (y - y0) * (y - y0))

/-- R104 (marked there as derived): the point set is invariant under the eight sign and axis-swap maps about the
centre. -/
def Obligations.CircleIsSymmetric : Prop :=
  ∀ x0 y0 r u v : Int, (x0 + u, y0 + v) ∈ circlePoints x0 y0 r →
    (x0 - u, y0 + v) ∈ circlePoints x0 y0 r ∧ (x0 + u, y0 - v) ∈ circlePoints x0 y0 r ∧
    (x0 + v, y0 + u) ∈ circlePoints x0 y0 r

/-! ### Clear -/

/-- CLEAR completes from every state (R105) with the full-screen window and then 57 600 words of the colour pending. -/
def Obligations.ClearSendsTheFullScreen : Prop :=
  ∀ (c : Half) (s : State),
    exec (.clear c) s = .next { s with
      pending := windowTransmissions s.cfg 0 0 239 239
        ++ (List.replicate 57600 (transmission 16 c true)).flatten }

/-- R105, its corner case, with R92: on a panel that content claims may be made of, an accepted CLEAR leaves every cell
of the panel at the colour. -/
def Obligations.ClearFillsEveryCell : Prop :=
  ∀ (s : State) (c : Half), contentReady s → s.pending = [] → s.host = hostProgram [encode (.clear c)] →
    ∃ t, runSteps 2937886 s = .next t ∧ t.pending = [] ∧
      ∀ u v, u < 240 → v < 240 → t.panel.readCell u v = .ok c
end

