-- ==== Sys2Proof/Laws/Decode.lean ====
section
/-! SUPPORT. Fields and words: what each field of an encoded word is, when two words are equal, and how fields pass through a mask. -/

namespace Sys2Proof

/-- The bits of an encoded word (R68). -/
theorem getLsbD_encodeFields (op : Byte) (a b c d e : Half) (i : Nat) (hi : i < 96) :
    (encodeFields op a b c d e).getLsbD i =
      (op.getLsbD i || (decide (8 ≤ i) && a.getLsbD (i - 8)) || (decide (24 ≤ i) && b.getLsbD (i - 24))
        || (decide (40 ≤ i) && c.getLsbD (i - 40)) || (decide (56 ≤ i) && d.getLsbD (i - 56))
        || (decide (72 ≤ i) && e.getLsbD (i - 72))) := by
  simp only [encodeFields, BitVec.getLsbD_or, BitVec.getLsbD_shiftLeft, BitVec.getLsbD_setWidth, hi, decide_true,
    Bool.true_and]
  have h1 : ∀ k, i - k < 96 := fun k => by omega
  simp [h1, ← decide_not]

@[simp] theorem fieldOp_encodeFields (op : Byte) (a b c d e : Half) :
    fieldOp (encodeFields op a b c d e) = op := by
  apply BitVec.eq_of_getLsbD_eq
  intro i hi
  rw [fieldOp, BitVec.getLsbD_extractLsb', getLsbD_encodeFields _ _ _ _ _ _ _ (by omega)]
  simp [hi, show ¬ 8 ≤ i by omega, show ¬ 24 ≤ i by omega, show ¬ 40 ≤ i by omega, show ¬ 56 ≤ i by omega, show ¬ 72 ≤ i by omega]

@[simp] theorem fieldA_encodeFields (op : Byte) (a b c d e : Half) :
    fieldA (encodeFields op a b c d e) = a := by
  apply BitVec.eq_of_getLsbD_eq
  intro i hi
  rw [fieldA, BitVec.getLsbD_extractLsb', getLsbD_encodeFields _ _ _ _ _ _ _ (by omega),
    BitVec.getLsbD_of_ge op _ (by omega)]
  simp [hi, show ¬ 24 ≤ 8 + i by omega, show ¬ 40 ≤ 8 + i by omega, show ¬ 56 ≤ 8 + i by omega, show ¬ 72 ≤ 8 + i by omega]

@[simp] theorem fieldB_encodeFields (op : Byte) (a b c d e : Half) :
    fieldB (encodeFields op a b c d e) = b := by
  apply BitVec.eq_of_getLsbD_eq
  intro i hi
  rw [fieldB, BitVec.getLsbD_extractLsb', getLsbD_encodeFields _ _ _ _ _ _ _ (by omega),
    BitVec.getLsbD_of_ge op _ (by omega),
    BitVec.getLsbD_of_ge a _ (by omega)]
  simp [hi, show ¬ 40 ≤ 24 + i by omega, show ¬ 56 ≤ 24 + i by omega, show ¬ 72 ≤ 24 + i by omega]

@[simp] theorem fieldC_encodeFields (op : Byte) (a b c d e : Half) :
    fieldC (encodeFields op a b c d e) = c := by
  apply BitVec.eq_of_getLsbD_eq
  intro i hi
  rw [fieldC, BitVec.getLsbD_extractLsb', getLsbD_encodeFields _ _ _ _ _ _ _ (by omega),
    BitVec.getLsbD_of_ge op _ (by omega),
    BitVec.getLsbD_of_ge a _ (by omega),
    BitVec.getLsbD_of_ge b _ (by omega)]
  simp [hi, show ¬ 56 ≤ 40 + i by omega, show ¬ 72 ≤ 40 + i by omega]

@[simp] theorem fieldD_encodeFields (op : Byte) (a b c d e : Half) :
    fieldD (encodeFields op a b c d e) = d := by
  apply BitVec.eq_of_getLsbD_eq
  intro i hi
  rw [fieldD, BitVec.getLsbD_extractLsb', getLsbD_encodeFields _ _ _ _ _ _ _ (by omega),
    BitVec.getLsbD_of_ge op _ (by omega),
    BitVec.getLsbD_of_ge a _ (by omega),
    BitVec.getLsbD_of_ge b _ (by omega),
    BitVec.getLsbD_of_ge c _ (by omega)]
  simp [hi, show ¬ 72 ≤ 56 + i by omega]

@[simp] theorem fieldE_encodeFields (op : Byte) (a b c d e : Half) :
    fieldE (encodeFields op a b c d e) = e := by
  apply BitVec.eq_of_getLsbD_eq
  intro i hi
  rw [fieldE, BitVec.getLsbD_extractLsb', getLsbD_encodeFields _ _ _ _ _ _ _ (by omega),
    BitVec.getLsbD_of_ge op _ (by omega),
    BitVec.getLsbD_of_ge a _ (by omega),
    BitVec.getLsbD_of_ge b _ (by omega),
    BitVec.getLsbD_of_ge c _ (by omega),
    BitVec.getLsbD_of_ge d _ (by omega)]
  simp [hi]

@[simp] theorem fieldRsv_encodeFields (op : Byte) (a b c d e : Half) :
    fieldRsv (encodeFields op a b c d e) = 0 := by
  apply BitVec.eq_of_getLsbD_eq
  intro i hi
  rw [fieldRsv, BitVec.getLsbD_extractLsb', getLsbD_encodeFields _ _ _ _ _ _ _ (by omega),
    BitVec.getLsbD_of_ge op _ (by omega),
    BitVec.getLsbD_of_ge a _ (by omega),
    BitVec.getLsbD_of_ge b _ (by omega),
    BitVec.getLsbD_of_ge c _ (by omega),
    BitVec.getLsbD_of_ge d _ (by omega),
    BitVec.getLsbD_of_ge e _ (by omega)]
  simp

/-- A bit of a word is the bit of a field. -/
theorem getLsbD_of_extract (w : CmdWord) (start len i : Nat) (h : start ≤ i) (h' : i < start + len) :
    w.getLsbD i = (w.extractLsb' start len).getLsbD (i - start) := by
  rw [BitVec.getLsbD_extractLsb', Nat.add_sub_cancel' h]
  simp [show i - start < len by omega]

/-- Two words are equal when their seven fields are (R56). -/
theorem cmdWord_ext (v w : CmdWord) (hop : fieldOp v = fieldOp w) (ha : fieldA v = fieldA w) (hb : fieldB v = fieldB w)
    (hc : fieldC v = fieldC w) (hd : fieldD v = fieldD w) (he : fieldE v = fieldE w) (hr : fieldRsv v = fieldRsv w) :
    v = w := by
  apply BitVec.eq_of_getLsbD_eq
  intro i hi
  have step : ∀ start len, start ≤ i → i < start + len → v.extractLsb' start len = w.extractLsb' start len →
      v.getLsbD i = w.getLsbD i := by
    intro start len h h' heq
    rw [getLsbD_of_extract v start len i h h', getLsbD_of_extract w start len i h h', heq]
  rcases Nat.lt_or_ge i 8 with h | h
  · exact step 0 8 (by omega) (by omega) hop
  rcases Nat.lt_or_ge i 24 with h | h
  · exact step 8 16 (by omega) (by omega) ha
  rcases Nat.lt_or_ge i 40 with h | h
  · exact step 24 16 (by omega) (by omega) hb
  rcases Nat.lt_or_ge i 56 with h | h
  · exact step 40 16 (by omega) (by omega) hc
  rcases Nat.lt_or_ge i 72 with h | h
  · exact step 56 16 (by omega) (by omega) hd
  rcases Nat.lt_or_ge i 88 with h | h
  · exact step 72 16 (by omega) (by omega) he
  · exact step 88 8 (by omega) (by omega) hr

theorem fieldOp_and (v w : CmdWord) : fieldOp (v &&& w) = fieldOp v &&& fieldOp w := by
  simp [fieldOp, BitVec.extractLsb'_and]

theorem fieldA_and (v w : CmdWord) : fieldA (v &&& w) = fieldA v &&& fieldA w := by
  simp [fieldA, BitVec.extractLsb'_and]

theorem fieldB_and (v w : CmdWord) : fieldB (v &&& w) = fieldB v &&& fieldB w := by
  simp [fieldB, BitVec.extractLsb'_and]

theorem fieldC_and (v w : CmdWord) : fieldC (v &&& w) = fieldC v &&& fieldC w := by
  simp [fieldC, BitVec.extractLsb'_and]

theorem fieldD_and (v w : CmdWord) : fieldD (v &&& w) = fieldD v &&& fieldD w := by
  simp [fieldD, BitVec.extractLsb'_and]

theorem fieldE_and (v w : CmdWord) : fieldE (v &&& w) = fieldE v &&& fieldE w := by
  simp [fieldE, BitVec.extractLsb'_and]

theorem fieldRsv_and (v w : CmdWord) : fieldRsv (v &&& w) = fieldRsv v &&& fieldRsv w := by
  simp [fieldRsv, BitVec.extractLsb'_and]

/-- A byte widened to a field has nothing above bit 7 (R60 (c)). -/
theorem byte_setWidth_high (v : Byte) : v.setWidth 16 &&& 0xFF00#16 = 0 := by
  revert v
  decide

/-- An orientation widened to a field has nothing above bit 1 (R60 (d)). -/
theorem orient_setWidth_high (v : BitVec 2) : v.setWidth 16 &&& 0xFFFC#16 = 0 := by
  revert v
  decide

/-- A byte read back from its field (R58). -/
theorem byte_field_back (v : Byte) : (v.setWidth 16).extractLsb' 0 8 = v := by
  revert v
  decide

/-- An orientation read back from its field (R58). -/
theorem orient_field_back (v : BitVec 2) : (v.setWidth 16).extractLsb' 0 2 = v := by
  revert v
  decide

end Sys2Proof
end

