-- ==== Sys2Proof/Laws/Memory.lean ====
section
/-! SUPPORT. The laws of the frame memory: what a read gives after a write, and that a write keeps the canonical form. -/

namespace Sys2Proof.Machine

/-- A read after a write to the same address gives the byte written. -/
@[simp] theorem Memory.read_write_same (m : Memory) (a : Nat) (b : Byte) : (m.write a b).read a = some b := by
  induction m with
  | nil => simp [Memory.write, Memory.read]
  | cons c m ih =>
    obtain ⟨k, v⟩ := c
    unfold Memory.write
    split
    · simp [Memory.read]
    · split
      · simp [Memory.read]
      · rename_i hne
        simp [Memory.read, ih, Ne.symm hne]

/-- A write leaves every other address alone. -/
theorem Memory.read_write_other (m : Memory) (a a' : Nat) (b : Byte) (h : a' ≠ a) :
    (m.write a b).read a' = m.read a' := by
  induction m with
  | nil => simp [Memory.write, Memory.read, Ne.symm h]
  | cons c m ih =>
    obtain ⟨k, v⟩ := c
    unfold Memory.write
    split
    · simp [Memory.read, Ne.symm h]
    · split
      · rename_i he
        subst he
        simp [Memory.read, Ne.symm h]
      · simp [Memory.read, ih]

/-- A write above `lo` keeps the rest rising above `lo`. -/
theorem Memory.risingAbove_write (m : Memory) (lo a : Nat) (b : Byte) (hm : Memory.risingAbove lo m = true)
    (ha : lo < a) : Memory.risingAbove lo (m.write a b) = true := by
  induction m generalizing lo with
  | nil => simpa [Memory.write, Memory.risingAbove] using ha
  | cons c m ih =>
    obtain ⟨k, v⟩ := c
    simp only [Memory.risingAbove, Bool.and_eq_true, decide_eq_true_eq] at hm
    unfold Memory.write
    split
    · rename_i hlt
      simp [Memory.risingAbove, ha, hlt, hm.2]
    · split
      · rename_i he
        subst he
        simp [Memory.risingAbove, ha, hm.2]
      · rename_i h1 h2
        simp [Memory.risingAbove, hm.1, ih k hm.2 (by omega)]

/-- Every write keeps the canonical form. -/
theorem Memory.wf_write (m : Memory) (a : Nat) (b : Byte) (hm : Memory.wf m = true) :
    Memory.wf (m.write a b) = true := by
  cases m with
  | nil => rfl
  | cons c m =>
    obtain ⟨k, v⟩ := c
    simp only [Memory.wf] at hm
    unfold Memory.write
    split
    · rename_i hlt
      simp [Memory.wf, Memory.risingAbove, hlt, hm]
    · split
      · rename_i he
        subst he
        simpa [Memory.wf] using hm
      · rename_i h1 h2
        simpa [Memory.wf] using Memory.risingAbove_write m k a b hm (by omega)

/-- Writing a cell keeps the canonical form. -/
theorem Memory.wf_writeCell (m : Memory) (x y : Nat) (w : Half) (hm : Memory.wf m = true) :
    Memory.wf (m.writeCell x y w) = true :=
  Memory.wf_write _ _ _ (Memory.wf_write _ _ _ hm)

/-- The addresses of a memory after a write. -/
theorem Memory.mem_write (m : Memory) (a : Nat) (b : Byte) (c : Host.Cell) (h : c ∈ m.write a b) :
    c = (a, b) ∨ c ∈ m := by
  induction m with
  | nil => exact .inl (by simpa [Memory.write] using h)
  | cons d m ih =>
    obtain ⟨k, v⟩ := d
    unfold Memory.write at h
    split at h
    · simpa using h
    · split at h
      · rcases List.mem_cons.mp h with h | h
        · exact .inl h
        · exact .inr (List.mem_cons_of_mem _ h)
      · rcases List.mem_cons.mp h with h | h
        · exact .inr (by simp [h])
        · rcases ih h with h | h
          · exact .inl h
          · exact .inr (List.mem_cons_of_mem _ h)

/-- The two halves of a word, high byte first. -/
theorem half_bytes (w : Half) : (w.extractLsb' 8 8 ++ w.extractLsb' 0 8 : BitVec 16) = w := by
  apply BitVec.eq_of_getLsbD_eq
  intro i hi
  rw [BitVec.getLsbD_append]
  by_cases h : i < 8
  · simp [h]
  · have h2 : i - 8 < 8 := by omega
    have h3 : 8 + (i - 8) = i := by omega
    simp [h, h2, h3]

/-- A read of the cell just written gives the word. -/
@[simp] theorem Memory.readCell_writeCell_same (m : Memory) (x y : Nat) (w : Half) :
    (m.writeCell x y w).readCell x y = some w := by
  have h : cellAddr x y ≠ cellAddr x y + 1 := by omega
  simp only [Memory.readCell, Memory.writeCell, Memory.read_write_other _ _ _ _ h, Memory.read_write_same]
  rw [half_bytes]

/-- Two cells of the panel have different addresses, at least two apart. -/
theorem cellAddr_ne (x y u v : Nat) (hx : x < 240) (hu : u < 240) (h : (u, v) ≠ (x, y)) :
    cellAddr u v + 1 < cellAddr x y ∨ cellAddr x y + 1 < cellAddr u v := by
  have h' : ¬ (u = x ∧ v = y) := by simpa using h
  simp only [cellAddr, Config.panelW]
  omega

/-- Writing a cell leaves every other cell alone. -/
theorem Memory.readCell_writeCell_other (m : Memory) (x y u v : Nat) (w : Half) (hx : x < 240) (hu : u < 240)
    (h : (u, v) ≠ (x, y)) : (m.writeCell x y w).readCell u v = m.readCell u v := by
  have hne := cellAddr_ne x y u v hx hu h
  simp only [Memory.readCell, Memory.writeCell]
  rw [Memory.read_write_other _ _ _ _ (by omega), Memory.read_write_other _ _ _ _ (by omega),
    Memory.read_write_other _ _ _ _ (by omega), Memory.read_write_other _ _ _ _ (by omega)]

end Sys2Proof.Machine
end

