-- ==== Sys2Proof/Laws/Panel.lean ====
section
/-! SUPPORT. The panel's operations keep the frame memory canonical and inside the panel (log entry 8), and know no mode of a panel that was not brought up (R131). -/

namespace Sys2Proof.Machine

/-- The frame memory is canonical and holds only bytes of cells of the panel. -/
def memOk (m : Memory) : Prop := Memory.wf m = true ∧ memoryInRange m

theorem memOk_nil : memOk [] := ⟨rfl, by simp [memoryInRange]⟩

/-- Writing a cell of the panel keeps the memory so. -/
theorem memOk_writeCell (m : Memory) (x y : Nat) (w : Half) (hm : memOk m) (hx : x ≤ 239) (hy : y ≤ 239) :
    memOk (m.writeCell x y w) := by
  refine ⟨Memory.wf_writeCell _ _ _ _ hm.1, fun c hc => ?_⟩
  rcases Memory.mem_write _ _ _ _ hc with rfl | hc
  · simp only [cellAddr, Config.panelW, Config.panelH]; omega
  · rcases Memory.mem_write _ _ _ _ hc with rfl | hc
    · simp only [cellAddr, Config.panelW, Config.panelH]; omega
    · exact hm.2 c hc

namespace Panel

@[simp] theorem loseMem_mem (p : Panel) : p.loseMem.mem = [] := rfl
@[simp] theorem freeCols_mem (n : Nat) (p : Panel) : (p.freeCols n).mem = p.mem := rfl
@[simp] theorem freeRows_mem (n : Nat) (p : Panel) : (p.freeRows n).mem = p.mem := rfl
@[simp] theorem freeWindow_mem (n : Nat) (p : Panel) : (p.freeWindow n).mem = p.mem := rfl
@[simp] theorem forget_mem (n : Nat) (p : Panel) : (p.forget n).mem = [] := rfl
@[simp] theorem switchOff_mem (p : Panel) : p.switchOff.mem = p.mem := rfl
@[simp] theorem elapse_mem (ms : Nat) (p : Panel) : (p.elapse ms).mem = p.mem := rfl
@[simp] theorem resetAsserted_mem (n : Nat) (p : Panel) : (p.resetAsserted n).mem = [] := rfl
@[simp] theorem advancePointer_mem (p : Panel) : p.advancePointer.mem = p.mem := by
  unfold advancePointer; split <;> rfl
@[simp] theorem interrupt_mem (n : Nat) (p : Panel) : (p.interrupt n).mem = p.mem := by
  unfold interrupt; split <;> rfl
@[simp] theorem loseWindow_mem (n : Nat) (p : Panel) : (p.loseWindow n).mem = p.mem := rfl
@[simp] theorem strayData_mem (n : Nat) (p : Panel) : (p.strayData n).mem = [] := rfl
@[simp] theorem becomeReady_mem (n owed : Nat) (p : Panel) : (p.becomeReady n owed).mem = [] := rfl
@[simp] theorem switchOff_stage (p : Panel) : p.switchOff.stage = .off := rfl
@[simp] theorem switchOff_owed (p : Panel) : p.switchOff.owed = p.owed := rfl
@[simp] theorem switchOff_mode (p : Panel) : p.switchOff.mode = p.mode := rfl
@[simp] theorem loseWindow_mode (n : Nat) (p : Panel) : (p.loseWindow n).mode = .unspecified := rfl
@[simp] theorem loseWindow_stage (n : Nat) (p : Panel) : (p.loseWindow n).stage = p.stage := rfl
@[simp] theorem loseWindow_owed (n : Nat) (p : Panel) : (p.loseWindow n).owed = p.owed := rfl
@[simp] theorem forget_mode (n : Nat) (p : Panel) : (p.forget n).mode = .unspecified := rfl
@[simp] theorem forget_stage (n : Nat) (p : Panel) : (p.forget n).stage = p.stage := rfl
@[simp] theorem forget_owed (n : Nat) (p : Panel) : (p.forget n).owed = p.owed := rfl
@[simp] theorem becomeReady_mode (n owed : Nat) (p : Panel) : (p.becomeReady n owed).mode = .unspecified := rfl
@[simp] theorem becomeReady_stage (n owed : Nat) (p : Panel) : (p.becomeReady n owed).stage = .ready := rfl
@[simp] theorem becomeReady_owed (n owed : Nat) (p : Panel) : (p.becomeReady n owed).owed = owed := rfl
@[simp] theorem strayData_xs (n : Nat) (p : Panel) : (p.strayData n).xs = p.xs := rfl
@[simp] theorem strayData_xe (n : Nat) (p : Panel) : (p.strayData n).xe = p.xe := rfl
@[simp] theorem strayData_ys (n : Nat) (p : Panel) : (p.strayData n).ys = p.ys := rfl
@[simp] theorem strayData_ye (n : Nat) (p : Panel) : (p.strayData n).ye = p.ye := rfl
@[simp] theorem strayData_mode (n : Nat) (p : Panel) : (p.strayData n).mode = p.mode := rfl
@[simp] theorem strayData_stage (n : Nat) (p : Panel) : (p.strayData n).stage = p.stage := rfl

/-- All that the bring-up can do to the frame memory: nothing, or drop it. -/
theorem bringUp_mem (cfg : Config) (n : Nat) (c : Byte) (p : Panel) :
    (p.bringUp cfg n c).mem = p.mem ∨ (p.bringUp cfg n c).mem = [] := by
  unfold bringUp
  split
  · split <;> exact .inl rfl
  · split
    · split <;> first | exact .inl rfl | exact .inr rfl
    · exact .inl rfl

theorem bringUp_memOk (cfg : Config) (n : Nat) (c : Byte) (p : Panel) (h : memOk p.mem) :
    memOk (p.bringUp cfg n c).mem := by
  rcases bringUp_mem cfg n c p with h' | h' <;> rw [h']
  exacts [h, memOk_nil]

theorem initDone_memOk (n : Nat) (p : Panel) (h : memOk p.mem) : memOk (p.initDone n).mem := by
  unfold initDone; split
  exacts [h, memOk_nil]

theorem resetReleased_memOk (n : Nat) (p : Panel) (h : memOk p.mem) : memOk (p.resetReleased n).mem := by
  unfold resetReleased; split
  exacts [h, memOk_nil]

/-- Inside a valid window the write pointer addresses a cell of the panel (R41, R43). -/
theorem pointer_onPanel (p : Panel) (hv : p.windowValid = true) (hp : p.pointerIn = true) :
    p.px ≤ 239 ∧ p.py ≤ 239 := by
  simp only [windowValid, pointerIn, decide_eq_true_eq, Config.panelW, Config.panelH] at hv hp
  omega

theorem pixel_memOk (w : Half) (p : Panel) (h : memOk p.mem) : memOk (p.pixel w).mem := by
  unfold pixel
  split
  · rename_i hc
    simp only [Bool.and_eq_true] at hc
    obtain ⟨hx, hy⟩ := pointer_onPanel p hc.1 hc.2
    simpa using memOk_writeCell p.mem p.px p.py w h hx hy
  · exact memOk_nil

theorem dataByte_memOk (n : Nat) (b : Byte) (p : Panel) (h : memOk p.mem) : memOk (p.dataByte n b).mem := by
  unfold dataByte
  split
  · exact h
  · exact h
  · exact h
  · exact h
  · exact h
  · exact pixel_memOk _ _ h
  · exact h
  · exact memOk_nil
  · exact memOk_nil

theorem memoryWrite_memOk (p : Panel) (h : memOk p.mem) : memOk p.memoryWrite.mem := by
  unfold memoryWrite
  simp only
  split
  · exact h
  · exact memOk_nil

theorem windowCommand_memOk (cfg : Config) (c : Byte) (p : Panel) (h : memOk p.mem) :
    memOk (p.windowCommand cfg c).mem := by
  unfold windowCommand
  split
  · exact h
  · split
    · exact h
    · split
      · exact memoryWrite_memOk p h
      · exact h

theorem receive_memOk (cfg : Config) (n : Nat) (b : WireByte) (p : Panel) (h : memOk p.mem) :
    memOk (p.receive cfg n b).mem := by
  have hq : memOk (if p.addressable then p.applyByte cfg n b else p.forget n).mem := by
    split
    · cases b with
      | cmd c => exact windowCommand_memOk cfg c (p.interrupt n) (by simpa using h)
      | data d => exact dataByte_memOk n d p h
    · exact memOk_nil
  cases b with
  | cmd c => exact bringUp_memOk cfg n c _ hq
  | data d => exact hq

theorem receiveAll_memOk (cfg : Config) (n : Nat) (bs : List WireByte) (p : Panel) (h : memOk p.mem) :
    memOk (p.receiveAll cfg n bs).mem := by
  unfold receiveAll
  induction bs generalizing p with
  | nil => exact h
  | cons b bs ih => exact ih _ (receive_memOk cfg n b p h)

theorem sampled_memOk (cfg : Config) (n : Nat) (e : Option WireEvent) (p : Panel) (h : memOk p.mem) :
    memOk (p.sampled cfg n e).mem := by
  unfold sampled
  split
  · exact h
  · unfold frameStart; split
    · exact h
    · exact memOk_nil
  · exact h
  · unfold frameStop; split
    · exact receiveAll_memOk cfg n _ _ h
    · exact memOk_nil

/-- Whatever the levels do, the frame memory stays canonical and inside the panel. -/
theorem observe_memOk (cfg : Config) (n : Nat) (before after : Pins) (p : Panel) (h : memOk p.mem) :
    memOk (p.observe cfg n before after).mem := by
  unfold observe
  apply sampled_memOk
  unfold resetLine
  split
  · exact memOk_nil
  · split
    · exact resetReleased_memOk n p h
    · exact h

theorem blockReset_memOk (n : Nat) (csN : Bool) (p : Panel) (h : memOk p.mem) : memOk (p.blockReset n csN).mem := by
  unfold blockReset; split
  · exact h
  · exact memOk_nil

end Panel

/-- Performing an event keeps the frame memory canonical and inside the panel. -/
theorem performEvent_memOk (e : Event) (s : State) (h : memOk s.panel.mem) : memOk (s.performEvent e).panel.mem := by
  cases e with
  | w k l => exact Panel.observe_memOk _ _ _ _ _ h
  | wait ms => exact h

theorem performNext_memOk (e : Event) (rest : List Event) (s : State) (h : memOk s.panel.mem) :
    memOk (s.performNext e rest).panel.mem := by
  unfold State.performNext State.settleInit
  split
  · exact Panel.initDone_memOk _ _ (performEvent_memOk e { s with pending := rest } h)
  · exact performEvent_memOk e { s with pending := rest } h

/-! ### Out of readiness nothing is known of the mode (R28, R38, R131) -/

/-- The receiver model applies to a panel that was brought up, and to no other (R131): its mode is unspecified. -/
def modeOk (p : Panel) : Prop := p.stage ≠ .ready → p.mode = .unspecified

namespace Panel

/-- The bring-up leaves the mode alone, except that it makes it unspecified when it is done. -/
theorem bringUp_modeOk (cfg : Config) (n : Nat) (c : Byte) (p : Panel) (h : modeOk p) : modeOk (p.bringUp cfg n c) := by
  unfold bringUp modeOk at *
  split
  · split <;> simp_all
  · split
    · split <;> simp_all
    · exact h

/-- What the receiver model makes of a byte leaves the stage alone. -/
theorem applyByte_stage (cfg : Config) (n : Nat) (b : WireByte) (p : Panel) :
    (p.applyByte cfg n b).stage = p.stage := by
  cases b with
  | cmd c =>
    have hi : (p.interrupt n).stage = p.stage := by unfold interrupt; split <;> rfl
    have hm : ∀ q : Panel, q.memoryWrite.stage = q.stage := fun q => by unfold memoryWrite; simp only; split <;> rfl
    simp only [applyByte, commandByte, windowCommand]
    repeat' split
    all_goals simp [hi, hm]
  | data d =>
    have hx : ∀ (q : Panel) (w : Half), (q.pixel w).stage = q.stage := fun q w => by
      unfold pixel advancePointer
      split
      · split <;> rfl
      · rfl
    simp only [applyByte, dataByte]
    split <;> first | rfl | simp [hx]

/-- A byte for a panel that is not addressable: everything is forgotten, and a command counts for the bring-up. -/
theorem receive_unready (cfg : Config) (n : Nat) (b : WireByte) (p : Panel) (h : p.addressable = false) :
    p.receive cfg n b =
      match b with
      | .cmd c => (p.forget n).bringUp cfg n c
      | .data _ => p.forget n := by
  cases b <;> simp [receive, h]

/-- A byte for an addressable panel is the receiver model's. -/
theorem receive_ready (cfg : Config) (n : Nat) (b : WireByte) (p : Panel) (h : p.addressable = true) :
    p.receive cfg n b =
      match b with
      | .cmd c => (p.commandByte cfg n c).bringUp cfg n c
      | .data d => p.dataByte n d := by
  cases b <;> simp [receive, applyByte, h]

theorem receive_modeOk (cfg : Config) (n : Nat) (b : WireByte) (p : Panel) (_h : modeOk p) :
    modeOk (p.receive cfg n b) := by
  have hq : modeOk (if p.addressable then p.applyByte cfg n b else p.forget n) := by
    split
    · rename_i ha
      intro hs
      rw [applyByte_stage] at hs
      simp [addressable, hs] at ha
    · exact fun _ => rfl
  cases b with
  | cmd c => exact bringUp_modeOk cfg n c _ hq
  | data d => exact hq

theorem receiveAll_modeOk (cfg : Config) (n : Nat) (bs : List WireByte) (p : Panel) (h : modeOk p) :
    modeOk (p.receiveAll cfg n bs) := by
  unfold receiveAll
  induction bs generalizing p with
  | nil => exact h
  | cons b bs ih => exact ih _ (receive_modeOk cfg n b p h)

/-- Whatever the levels do, the mode of a panel that was not brought up stays unspecified. -/
theorem observe_modeOk (cfg : Config) (n : Nat) (before after : Pins) (p : Panel) (h : modeOk p) :
    modeOk (p.observe cfg n before after) := by
  have hr : modeOk (p.resetLine n before after) := by
    unfold resetLine resetReleased
    split
    · exact fun _ => rfl
    · split
      · split
        · rename_i hs
          exact fun _ => h (by simp [hs.1])
        · exact fun _ => rfl
      · exact h
  unfold observe sampled
  split
  · exact hr
  · unfold frameStart; split
    · exact hr
    · exact fun _ => rfl
  · exact hr
  · unfold frameStop; split
    · exact receiveAll_modeOk cfg n _ _ hr
    · exact fun _ => rfl

theorem blockReset_modeOk (n : Nat) (csN : Bool) (p : Panel) : modeOk (p.blockReset n csN) := by
  unfold blockReset; split <;> exact fun _ => rfl

end Panel

theorem performEvent_modeOk (e : Event) (s : State) (h : modeOk s.panel) : modeOk (s.performEvent e).panel := by
  cases e with
  | w k l => exact Panel.observe_modeOk _ _ _ _ _ h
  | wait ms => exact h

theorem performNext_modeOk (e : Event) (rest : List Event) (s : State) (h : modeOk s.panel) :
    modeOk (s.performNext e rest).panel := by
  have hp := performEvent_modeOk e { s with pending := rest } h
  unfold State.performNext State.settleInit
  split
  · show modeOk (Panel.initDone _ _)
    unfold Panel.initDone; split
    · exact hp
    · exact fun _ => rfl
  · exact hp

/-- The memory after reset. -/
theorem reset_memOk : memOk State.reset.panel.mem := memOk_nil

end Sys2Proof.Machine
end

