-- ==== Sys2Proof/Laws/PerInstr.lean ====
section
/-! SUPPORT. Statements per instruction: the word of every command is a word of its own row of the opcode table. -/

namespace Sys2Proof.Laws

/-- The row of an opcode. -/
def rowOfOp (o : Op) : Row := (rows.find? (fun r => r.op == o)).getD ⟨.nop, 0, 0⟩

/-- The seven fields decide whether a word is of a row. -/
theorem row_of_fields (w value mask : CmdWord) (hop : fieldOp w &&& fieldOp mask = fieldOp value)
    (ha : fieldA w &&& fieldA mask = fieldA value) (hb : fieldB w &&& fieldB mask = fieldB value)
    (hc : fieldC w &&& fieldC mask = fieldC value) (hd : fieldD w &&& fieldD mask = fieldD value)
    (he : fieldE w &&& fieldE mask = fieldE value) (hr : fieldRsv w &&& fieldRsv mask = fieldRsv value) :
    w &&& mask = value := by
  apply cmdWord_ext
  · rw [fieldOp_and, hop]
  · rw [fieldA_and, ha]
  · rw [fieldB_and, hb]
  · rw [fieldC_and, hc]
  · rw [fieldD_and, hd]
  · rw [fieldE_and, he]
  · rw [fieldRsv_and, hr]

namespace EncodesToItsRow

/-- The word of a command carries the command's opcode and meets the match and the mask of its row (R59, R60, R68). -/
def Statement (i : Instr) : Prop :=
  fieldOp (encode i) = i.op.number ∧ encode i &&& (rowOfOp i.op).mask = (rowOfOp i.op).value

theorem nop : Statement .nop := by
  refine ⟨by simp [encode], row_of_fields _ _ _ ?_ ?_ ?_ ?_ ?_ ?_ ?_⟩ <;> simp only [encode, Instr.op]
  · rw [fieldOp_encodeFields]; decide
  · rw [fieldA_encodeFields]; decide
  · rw [fieldB_encodeFields]; decide
  · rw [fieldC_encodeFields]; decide
  · rw [fieldD_encodeFields]; decide
  · rw [fieldE_encodeFields]; decide
  · rw [fieldRsv_encodeFields]; decide

theorem sendCmd8 (v : Byte) : Statement (.sendCmd8 v) := by
  refine ⟨by simp [encode], row_of_fields _ _ _ ?_ ?_ ?_ ?_ ?_ ?_ ?_⟩ <;> simp only [encode, Instr.op]
  · rw [fieldOp_encodeFields]; decide
  · rw [fieldA_encodeFields]; exact byte_setWidth_high v
  · rw [fieldB_encodeFields]; decide
  · rw [fieldC_encodeFields]; decide
  · rw [fieldD_encodeFields]; decide
  · rw [fieldE_encodeFields]; decide
  · rw [fieldRsv_encodeFields]; decide

theorem sendData8 (v : Byte) : Statement (.sendData8 v) := by
  refine ⟨by simp [encode], row_of_fields _ _ _ ?_ ?_ ?_ ?_ ?_ ?_ ?_⟩ <;> simp only [encode, Instr.op]
  · rw [fieldOp_encodeFields]; decide
  · rw [fieldA_encodeFields]; exact byte_setWidth_high v
  · rw [fieldB_encodeFields]; decide
  · rw [fieldC_encodeFields]; decide
  · rw [fieldD_encodeFields]; decide
  · rw [fieldE_encodeFields]; decide
  · rw [fieldRsv_encodeFields]; decide

theorem sendData16 (v : Half) : Statement (.sendData16 v) := by
  refine ⟨by simp [encode], row_of_fields _ _ _ ?_ ?_ ?_ ?_ ?_ ?_ ?_⟩ <;> simp only [encode, Instr.op]
  · rw [fieldOp_encodeFields]; decide
  · rw [fieldA_encodeFields]; exact BitVec.and_zero
  · rw [fieldB_encodeFields]; decide
  · rw [fieldC_encodeFields]; decide
  · rw [fieldD_encodeFields]; decide
  · rw [fieldE_encodeFields]; decide
  · rw [fieldRsv_encodeFields]; decide

theorem panelReset : Statement .panelReset := by
  refine ⟨by simp [encode], row_of_fields _ _ _ ?_ ?_ ?_ ?_ ?_ ?_ ?_⟩ <;> simp only [encode, Instr.op]
  · rw [fieldOp_encodeFields]; decide
  · rw [fieldA_encodeFields]; decide
  · rw [fieldB_encodeFields]; decide
  · rw [fieldC_encodeFields]; decide
  · rw [fieldD_encodeFields]; decide
  · rw [fieldE_encodeFields]; decide
  · rw [fieldRsv_encodeFields]; decide

theorem delay (ms : Half) : Statement (.delay ms) := by
  refine ⟨by simp [encode], row_of_fields _ _ _ ?_ ?_ ?_ ?_ ?_ ?_ ?_⟩ <;> simp only [encode, Instr.op]
  · rw [fieldOp_encodeFields]; decide
  · rw [fieldA_encodeFields]; exact BitVec.and_zero
  · rw [fieldB_encodeFields]; decide
  · rw [fieldC_encodeFields]; decide
  · rw [fieldD_encodeFields]; decide
  · rw [fieldE_encodeFields]; decide
  · rw [fieldRsv_encodeFields]; decide

theorem init (orient : BitVec 2) : Statement (.init orient) := by
  refine ⟨by simp [encode], row_of_fields _ _ _ ?_ ?_ ?_ ?_ ?_ ?_ ?_⟩ <;> simp only [encode, Instr.op]
  · rw [fieldOp_encodeFields]; decide
  · rw [fieldA_encodeFields]; exact orient_setWidth_high orient
  · rw [fieldB_encodeFields]; decide
  · rw [fieldC_encodeFields]; decide
  · rw [fieldD_encodeFields]; decide
  · rw [fieldE_encodeFields]; decide
  · rw [fieldRsv_encodeFields]; decide

theorem setWindow (xs ys xe ye : Half) : Statement (.setWindow xs ys xe ye) := by
  refine ⟨by simp [encode], row_of_fields _ _ _ ?_ ?_ ?_ ?_ ?_ ?_ ?_⟩ <;> simp only [encode, Instr.op]
  · rw [fieldOp_encodeFields]; decide
  · rw [fieldA_encodeFields]; exact BitVec.and_zero
  · rw [fieldB_encodeFields]; exact BitVec.and_zero
  · rw [fieldC_encodeFields]; exact BitVec.and_zero
  · rw [fieldD_encodeFields]; exact BitVec.and_zero
  · rw [fieldE_encodeFields]; decide
  · rw [fieldRsv_encodeFields]; decide

theorem drawPoint (x y color : Half) : Statement (.drawPoint x y color) := by
  refine ⟨by simp [encode], row_of_fields _ _ _ ?_ ?_ ?_ ?_ ?_ ?_ ?_⟩ <;> simp only [encode, Instr.op]
  · rw [fieldOp_encodeFields]; decide
  · rw [fieldA_encodeFields]; exact BitVec.and_zero
  · rw [fieldB_encodeFields]; exact BitVec.and_zero
  · rw [fieldC_encodeFields]; exact BitVec.and_zero
  · rw [fieldD_encodeFields]; decide
  · rw [fieldE_encodeFields]; decide
  · rw [fieldRsv_encodeFields]; decide

theorem drawLine (x1 y1 x2 y2 color : Half) : Statement (.drawLine x1 y1 x2 y2 color) := by
  refine ⟨by simp [encode], row_of_fields _ _ _ ?_ ?_ ?_ ?_ ?_ ?_ ?_⟩ <;> simp only [encode, Instr.op]
  · rw [fieldOp_encodeFields]; decide
  · rw [fieldA_encodeFields]; exact BitVec.and_zero
  · rw [fieldB_encodeFields]; exact BitVec.and_zero
  · rw [fieldC_encodeFields]; exact BitVec.and_zero
  · rw [fieldD_encodeFields]; exact BitVec.and_zero
  · rw [fieldE_encodeFields]; exact BitVec.and_zero
  · rw [fieldRsv_encodeFields]; decide

theorem drawRect (x1 y1 x2 y2 color : Half) : Statement (.drawRect x1 y1 x2 y2 color) := by
  refine ⟨by simp [encode], row_of_fields _ _ _ ?_ ?_ ?_ ?_ ?_ ?_ ?_⟩ <;> simp only [encode, Instr.op]
  · rw [fieldOp_encodeFields]; decide
  · rw [fieldA_encodeFields]; exact BitVec.and_zero
  · rw [fieldB_encodeFields]; exact BitVec.and_zero
  · rw [fieldC_encodeFields]; exact BitVec.and_zero
  · rw [fieldD_encodeFields]; exact BitVec.and_zero
  · rw [fieldE_encodeFields]; exact BitVec.and_zero
  · rw [fieldRsv_encodeFields]; decide

theorem drawCircle (x0 y0 r color : Half) : Statement (.drawCircle x0 y0 r color) := by
  refine ⟨by simp [encode], row_of_fields _ _ _ ?_ ?_ ?_ ?_ ?_ ?_ ?_⟩ <;> simp only [encode, Instr.op]
  · rw [fieldOp_encodeFields]; decide
  · rw [fieldA_encodeFields]; exact BitVec.and_zero
  · rw [fieldB_encodeFields]; exact BitVec.and_zero
  · rw [fieldC_encodeFields]; exact BitVec.and_zero
  · rw [fieldD_encodeFields]; exact BitVec.and_zero
  · rw [fieldE_encodeFields]; decide
  · rw [fieldRsv_encodeFields]; decide

theorem clear (color : Half) : Statement (.clear color) := by
  refine ⟨by simp [encode], row_of_fields _ _ _ ?_ ?_ ?_ ?_ ?_ ?_ ?_⟩ <;> simp only [encode, Instr.op]
  · rw [fieldOp_encodeFields]; decide
  · rw [fieldA_encodeFields]; exact BitVec.and_zero
  · rw [fieldB_encodeFields]; decide
  · rw [fieldC_encodeFields]; decide
  · rw [fieldD_encodeFields]; decide
  · rw [fieldE_encodeFields]; decide
  · rw [fieldRsv_encodeFields]; decide

end EncodesToItsRow

end Sys2Proof.Laws
end

