-- ==== Sys2Proof/Laws/State.lean ====
section
/-! SUPPORT. One lemma per field of State per update of it, so that no later proof unfolds a record update. -/

namespace Sys2Proof.Machine

/-! ### Pins -/

@[simp] theorem Pins.get_sclk (p : Pins) : p.get .sclk = p.sclk := rfl
@[simp] theorem Pins.get_sda (p : Pins) : p.get .sda = p.sda := rfl
@[simp] theorem Pins.get_csN (p : Pins) : p.get .csN = p.csN := rfl
@[simp] theorem Pins.get_dc (p : Pins) : p.get .dc = p.dc := rfl
@[simp] theorem Pins.get_rstN (p : Pins) : p.get .rstN = p.rstN := rfl

@[simp] theorem Pins.set_sclk_sclk (p : Pins) (l : Bool) : (p.set .sclk l).sclk = l := rfl
@[simp] theorem Pins.set_sclk_sda (p : Pins) (l : Bool) : (p.set .sclk l).sda = p.sda := rfl
@[simp] theorem Pins.set_sclk_csN (p : Pins) (l : Bool) : (p.set .sclk l).csN = p.csN := rfl
@[simp] theorem Pins.set_sclk_dc (p : Pins) (l : Bool) : (p.set .sclk l).dc = p.dc := rfl
@[simp] theorem Pins.set_sclk_rstN (p : Pins) (l : Bool) : (p.set .sclk l).rstN = p.rstN := rfl
@[simp] theorem Pins.set_sda_sclk (p : Pins) (l : Bool) : (p.set .sda l).sclk = p.sclk := rfl
@[simp] theorem Pins.set_sda_sda (p : Pins) (l : Bool) : (p.set .sda l).sda = l := rfl
@[simp] theorem Pins.set_sda_csN (p : Pins) (l : Bool) : (p.set .sda l).csN = p.csN := rfl
@[simp] theorem Pins.set_sda_dc (p : Pins) (l : Bool) : (p.set .sda l).dc = p.dc := rfl
@[simp] theorem Pins.set_sda_rstN (p : Pins) (l : Bool) : (p.set .sda l).rstN = p.rstN := rfl
@[simp] theorem Pins.set_csN_sclk (p : Pins) (l : Bool) : (p.set .csN l).sclk = p.sclk := rfl
@[simp] theorem Pins.set_csN_sda (p : Pins) (l : Bool) : (p.set .csN l).sda = p.sda := rfl
@[simp] theorem Pins.set_csN_csN (p : Pins) (l : Bool) : (p.set .csN l).csN = l := rfl
@[simp] theorem Pins.set_csN_dc (p : Pins) (l : Bool) : (p.set .csN l).dc = p.dc := rfl
@[simp] theorem Pins.set_csN_rstN (p : Pins) (l : Bool) : (p.set .csN l).rstN = p.rstN := rfl
@[simp] theorem Pins.set_dc_sclk (p : Pins) (l : Bool) : (p.set .dc l).sclk = p.sclk := rfl
@[simp] theorem Pins.set_dc_sda (p : Pins) (l : Bool) : (p.set .dc l).sda = p.sda := rfl
@[simp] theorem Pins.set_dc_csN (p : Pins) (l : Bool) : (p.set .dc l).csN = p.csN := rfl
@[simp] theorem Pins.set_dc_dc (p : Pins) (l : Bool) : (p.set .dc l).dc = l := rfl
@[simp] theorem Pins.set_dc_rstN (p : Pins) (l : Bool) : (p.set .dc l).rstN = p.rstN := rfl
@[simp] theorem Pins.set_rstN_sclk (p : Pins) (l : Bool) : (p.set .rstN l).sclk = p.sclk := rfl
@[simp] theorem Pins.set_rstN_sda (p : Pins) (l : Bool) : (p.set .rstN l).sda = p.sda := rfl
@[simp] theorem Pins.set_rstN_csN (p : Pins) (l : Bool) : (p.set .rstN l).csN = p.csN := rfl
@[simp] theorem Pins.set_rstN_dc (p : Pins) (l : Bool) : (p.set .rstN l).dc = p.dc := rfl
@[simp] theorem Pins.set_rstN_rstN (p : Pins) (l : Bool) : (p.set .rstN l).rstN = l := rfl

/-- Reading a pin after a write of a pin. -/
theorem Pins.get_set (p : Pins) (k q : Pin) (l : Bool) : (p.set k l).get q = if q = k then l else p.get q := by
  cases k <;> cases q <;> rfl

@[simp] theorem Pins.after_w (p : Pins) (k : Pin) (l : Bool) : p.after (.w k l) = p.set k l := rfl
@[simp] theorem Pins.after_wait (p : Pins) (ms : Nat) : p.after (.wait ms) = p := rfl
@[simp] theorem Pins.afterAll_nil (p : Pins) : p.afterAll [] = p := rfl
@[simp] theorem Pins.afterAll_cons (p : Pins) (e : Event) (t : List Event) :
    p.afterAll (e :: t) = (p.after e).afterAll t := rfl

/-- The levels after a trace of two parts. -/
theorem Pins.afterAll_append (p : Pins) (a b : List Event) : p.afterAll (a ++ b) = (p.afterAll a).afterAll b := by
  induction a generalizing p with
  | nil => rfl
  | cons e a ih => simp [ih]

/-! ### Updates of the state -/

@[simp] theorem raiseIllegal_cfg (why : Illegal) (s : State) : (raiseIllegal why s).cfg = s.cfg := rfl
@[simp] theorem raiseIllegal_pins (why : Illegal) (s : State) : (raiseIllegal why s).pins = s.pins := rfl
@[simp] theorem raiseIllegal_illegal (why : Illegal) (s : State) : (raiseIllegal why s).illegal = true := rfl
@[simp] theorem raiseIllegal_cur (why : Illegal) (s : State) : (raiseIllegal why s).cur = s.cur := rfl
@[simp] theorem raiseIllegal_pending (why : Illegal) (s : State) : (raiseIllegal why s).pending = [] := rfl
@[simp] theorem raiseIllegal_host (why : Illegal) (s : State) : (raiseIllegal why s).host = s.host := rfl
@[simp] theorem raiseIllegal_panel (why : Illegal) (s : State) : (raiseIllegal why s).panel = s.panel := rfl
@[simp] theorem raiseIllegal_free (why : Illegal) (s : State) : (raiseIllegal why s).free = s.free := rfl

@[simp] theorem State.portTake_cfg (s : State) : (s.portTake).cfg = s.cfg := rfl
@[simp] theorem State.portTake_pins (s : State) : (s.portTake).pins = s.pins := rfl
@[simp] theorem State.portTake_illegal (s : State) : (s.portTake).illegal = s.illegal := rfl
@[simp] theorem State.portTake_cur (s : State) : (s.portTake).cur = s.cur := rfl
@[simp] theorem State.portTake_pending (s : State) : (s.portTake).pending = s.pending := rfl
@[simp] theorem State.portTake_host (s : State) : (s.portTake).host = s.host.tail := rfl
@[simp] theorem State.portTake_panel (s : State) : (s.portTake).panel = s.panel := rfl
@[simp] theorem State.portTake_free (s : State) : (s.portTake).free = s.free := rfl

@[simp] theorem State.latch_cfg (w : CmdWord) (s : State) : (s.latch w).cfg = s.cfg := rfl
@[simp] theorem State.latch_pins (w : CmdWord) (s : State) : (s.latch w).pins = s.pins := rfl
@[simp] theorem State.latch_illegal (w : CmdWord) (s : State) : (s.latch w).illegal = s.illegal := rfl
@[simp] theorem State.latch_cur (w : CmdWord) (s : State) : (s.latch w).cur = w := rfl
@[simp] theorem State.latch_pending (w : CmdWord) (s : State) : (s.latch w).pending = s.pending := rfl
@[simp] theorem State.latch_host (w : CmdWord) (s : State) : (s.latch w).host = s.host.tail := rfl
@[simp] theorem State.latch_panel (w : CmdWord) (s : State) : (s.latch w).panel = s.panel := rfl
@[simp] theorem State.latch_free (w : CmdWord) (s : State) : (s.latch w).free = s.free := rfl

@[simp] theorem State.blockReset_cfg (s : State) : (s.blockReset).cfg = s.cfg := rfl
@[simp] theorem State.blockReset_pins (s : State) : (s.blockReset).pins = Pins.reset := rfl
@[simp] theorem State.blockReset_illegal (s : State) : (s.blockReset).illegal = false := rfl
@[simp] theorem State.blockReset_cur (s : State) : (s.blockReset).cur = Config.freeCur s.free := rfl
@[simp] theorem State.blockReset_pending (s : State) : (s.blockReset).pending = [] := rfl
@[simp] theorem State.blockReset_host (s : State) : (s.blockReset).host = s.host := rfl
@[simp] theorem State.blockReset_panel (s : State) : (s.blockReset).panel = s.panel.blockReset s.free s.pins.csN := rfl
@[simp] theorem State.blockReset_free (s : State) : (s.blockReset).free = s.free + 1 := rfl

@[simp] theorem State.performEvent_w_cfg (k : Pin) (l : Bool) (s : State) : (s.performEvent (.w k l)).cfg = s.cfg := rfl
@[simp] theorem State.performEvent_w_pins (k : Pin) (l : Bool) (s : State) : (s.performEvent (.w k l)).pins = s.pins.set k l := rfl
@[simp] theorem State.performEvent_w_illegal (k : Pin) (l : Bool) (s : State) : (s.performEvent (.w k l)).illegal = s.illegal := rfl
@[simp] theorem State.performEvent_w_cur (k : Pin) (l : Bool) (s : State) : (s.performEvent (.w k l)).cur = s.cur := rfl
@[simp] theorem State.performEvent_w_pending (k : Pin) (l : Bool) (s : State) : (s.performEvent (.w k l)).pending = s.pending := rfl
@[simp] theorem State.performEvent_w_host (k : Pin) (l : Bool) (s : State) : (s.performEvent (.w k l)).host = s.host := rfl
@[simp] theorem State.performEvent_w_panel (k : Pin) (l : Bool) (s : State) : (s.performEvent (.w k l)).panel = s.panel.observe s.cfg s.free s.pins (s.pins.set k l) := rfl
@[simp] theorem State.performEvent_w_free (k : Pin) (l : Bool) (s : State) : (s.performEvent (.w k l)).free = s.free + 1 := rfl

@[simp] theorem State.performEvent_wait_cfg (ms : Nat) (s : State) : (s.performEvent (.wait ms)).cfg = s.cfg := rfl
@[simp] theorem State.performEvent_wait_pins (ms : Nat) (s : State) : (s.performEvent (.wait ms)).pins = s.pins := rfl
@[simp] theorem State.performEvent_wait_illegal (ms : Nat) (s : State) : (s.performEvent (.wait ms)).illegal = s.illegal := rfl
@[simp] theorem State.performEvent_wait_cur (ms : Nat) (s : State) : (s.performEvent (.wait ms)).cur = s.cur := rfl
@[simp] theorem State.performEvent_wait_pending (ms : Nat) (s : State) : (s.performEvent (.wait ms)).pending = s.pending := rfl
@[simp] theorem State.performEvent_wait_host (ms : Nat) (s : State) : (s.performEvent (.wait ms)).host = s.host := rfl
@[simp] theorem State.performEvent_wait_panel (ms : Nat) (s : State) : (s.performEvent (.wait ms)).panel = s.panel.elapse ms := rfl
@[simp] theorem State.performEvent_wait_free (ms : Nat) (s : State) : (s.performEvent (.wait ms)).free = s.free + 1 := rfl

@[simp] theorem State.offerFirst_cfg (w : CmdWord) (s : State) : (s.offerFirst w).cfg = s.cfg := rfl
@[simp] theorem State.offerFirst_pins (w : CmdWord) (s : State) : (s.offerFirst w).pins = s.pins := rfl
@[simp] theorem State.offerFirst_illegal (w : CmdWord) (s : State) : (s.offerFirst w).illegal = s.illegal := rfl
@[simp] theorem State.offerFirst_cur (w : CmdWord) (s : State) : (s.offerFirst w).cur = s.cur := rfl
@[simp] theorem State.offerFirst_pending (w : CmdWord) (s : State) : (s.offerFirst w).pending = [] := rfl
@[simp] theorem State.offerFirst_host (w : CmdWord) (s : State) : (s.offerFirst w).host = { rstBlk := false, offer := some w } :: s.host := rfl
@[simp] theorem State.offerFirst_panel (w : CmdWord) (s : State) : (s.offerFirst w).panel = s.panel := rfl
@[simp] theorem State.offerFirst_free (w : CmdWord) (s : State) : (s.offerFirst w).free = s.free := rfl

/-! ### Updates that depend on the port or on the command in progress -/

@[simp] theorem State.portHold_cfg (s : State) : s.portHold.cfg = s.cfg := rfl
@[simp] theorem State.portHold_pins (s : State) : s.portHold.pins = s.pins := rfl
@[simp] theorem State.portHold_illegal (s : State) : s.portHold.illegal = s.illegal := rfl
@[simp] theorem State.portHold_cur (s : State) : s.portHold.cur = s.cur := rfl
@[simp] theorem State.portHold_pending (s : State) : s.portHold.pending = s.pending := rfl
@[simp] theorem State.portHold_panel (s : State) : s.portHold.panel = s.panel := rfl
@[simp] theorem State.portHold_free (s : State) : s.portHold.free = s.free := rfl

@[simp] theorem State.settleInit_cfg (s : State) : s.settleInit.cfg = s.cfg := by
  unfold State.settleInit; split <;> rfl
@[simp] theorem State.settleInit_pins (s : State) : s.settleInit.pins = s.pins := by
  unfold State.settleInit; split <;> rfl
@[simp] theorem State.settleInit_illegal (s : State) : s.settleInit.illegal = s.illegal := by
  unfold State.settleInit; split <;> rfl
@[simp] theorem State.settleInit_cur (s : State) : s.settleInit.cur = s.cur := by
  unfold State.settleInit; split <;> rfl
@[simp] theorem State.settleInit_pending (s : State) : s.settleInit.pending = s.pending := by
  unfold State.settleInit; split <;> rfl
@[simp] theorem State.settleInit_host (s : State) : s.settleInit.host = s.host := by
  unfold State.settleInit; split <;> rfl

/-- Performing an event changes the levels as the trace says. -/
@[simp] theorem State.performEvent_pins (e : Event) (s : State) : (s.performEvent e).pins = s.pins.after e := by
  cases e <;> rfl

@[simp] theorem State.performEvent_cfg (e : Event) (s : State) : (s.performEvent e).cfg = s.cfg := by
  cases e <;> rfl
@[simp] theorem State.performEvent_illegal (e : Event) (s : State) : (s.performEvent e).illegal = s.illegal := by
  cases e <;> rfl
@[simp] theorem State.performEvent_cur (e : Event) (s : State) : (s.performEvent e).cur = s.cur := by
  cases e <;> rfl
@[simp] theorem State.performEvent_pending (e : Event) (s : State) : (s.performEvent e).pending = s.pending := by
  cases e <;> rfl
@[simp] theorem State.performEvent_host (e : Event) (s : State) : (s.performEvent e).host = s.host := by
  cases e <;> rfl
@[simp] theorem State.performEvent_free (e : Event) (s : State) : (s.performEvent e).free = s.free + 1 := by
  cases e <;> rfl

@[simp] theorem State.performNext_pins (e : Event) (rest : List Event) (s : State) :
    (s.performNext e rest).pins = s.pins.after e := by
  simp [State.performNext]
@[simp] theorem State.performNext_pending (e : Event) (rest : List Event) (s : State) :
    (s.performNext e rest).pending = rest := by
  simp [State.performNext]
@[simp] theorem State.performNext_cfg (e : Event) (rest : List Event) (s : State) :
    (s.performNext e rest).cfg = s.cfg := by
  simp [State.performNext]
@[simp] theorem State.performNext_illegal (e : Event) (rest : List Event) (s : State) :
    (s.performNext e rest).illegal = s.illegal := by
  simp [State.performNext]
@[simp] theorem State.performNext_cur (e : Event) (rest : List Event) (s : State) :
    (s.performNext e rest).cur = s.cur := by
  simp [State.performNext]
@[simp] theorem State.performNext_host (e : Event) (rest : List Event) (s : State) :
    (s.performNext e rest).host = s.host := by
  simp [State.performNext]

@[simp] theorem State.portHold_host (s : State) : s.portHold.host = nextPorts s.host := rfl

/-- A waiting word is what the port offers at the next edge. -/
theorem holdWord_offer (w : CmdWord) (rest : List HostIn) :
    ∃ r more, holdWord w rest = { rstBlk := r, offer := some w } :: more := by
  unfold holdWord
  split
  · exact ⟨_, _, rfl⟩
  · split <;> exact ⟨_, _, rfl⟩

/-- A word that is offered and not accepted is offered again. -/
theorem State.portHold_offered (s : State) (w : CmdWord) (h : s.offered = some w) : s.portHold.offered = some w := by
  unfold State.offered at *
  split at h
  · cases h
  · rename_i hd rest hs
    obtain ⟨r, more, hh⟩ := holdWord_offer w rest
    simp [hs, nextPorts, h, hh]

/-! ### Outputs -/

theorem State.busy_iff (s : State) : s.busy = true ↔ s.pending ≠ [] := by
  simp [State.busy]

theorem State.status_bit0 (s : State) : s.status.getLsbD 0 = s.busy := by
  cases h : s.busy <;> cases h' : s.illegal <;> simp [State.status, h, h']

theorem State.status_bit1 (s : State) : s.status.getLsbD 1 = s.illegal := by
  cases h : s.busy <;> cases h' : s.illegal <;> simp [State.status, h, h']

end Sys2Proof.Machine
end

