-- ==== Sys2Proof/Laws/Trace.lean ====
section
/-! SUPPORT. Facts about transmissions and traces: their lengths, the levels they leave, the samples they put on the wire. -/

namespace Sys2Proof.Machine

@[simp] theorem sendBits_length (w : Nat) (v : BitVec w) (n : Nat) : (sendBits w v n).length = 3 * n := by
  induction n with
  | zero => rfl
  | succ n ih => simp [sendBits, ih]; omega

/-- A transmission of `w` bits is 3·w + 3 events (R71). -/
@[simp] theorem send_length (w : Nat) (v : BitVec w) (d : Bool) : (send w v d).length = 3 * w + 3 := by
  simp [send]

@[simp] theorem sendCmd_length (v : Byte) : (sendCmd v).length = 27 := send_length 8 v false
@[simp] theorem sendByte_length (v : Byte) : (sendByte v).length = 27 := send_length 8 v true
@[simp] theorem sendHalf_length (v : Half) : (sendHalf v).length = 51 := send_length 16 v true

@[simp] theorem repeatTrace_length (n : Nat) (t : List Event) : (repeatTrace n t).length = n * t.length := by
  induction n with
  | zero => simp [repeatTrace]
  | succ n ih => simp [repeatTrace, ih, Nat.succ_mul]; omega

/-- The levels after the bit loop: only SCLK and SDA move. -/
theorem afterAll_sendBits (w : Nat) (v : BitVec w) (n : Nat) (p : Pins) :
    p.afterAll (sendBits w v n) = if n = 0 then p else { p with sclk := true, sda := v.getLsbD 0 } := by
  induction n generalizing p with
  | zero => rfl
  | succ n ih =>
    simp only [sendBits, Pins.afterAll_cons, ih]
    by_cases h : n = 0
    · subst h; rfl
    · simp [h, Pins.after, Pins.set]

/-- The levels after a transmission of at least one bit (R71): deselected, SCLK active, the last bit on SDA. -/
theorem afterAll_send (w : Nat) (v : BitVec w) (d : Bool) (p : Pins) (hw : w ≠ 0) :
    p.afterAll (send w v d) = { sclk := true, sda := v.getLsbD 0, csN := true, dc := d, rstN := p.rstN } := by
  simp [send, Pins.afterAll_append, afterAll_sendBits, hw, Pins.after, Pins.set]

/-- The samples of the bit loop, in order. -/
def sentSamples (w : Nat) (v : BitVec w) (d : Bool) (n : Nat) : List Sample :=
  match n with
  | 0 => []
  | k + 1 => { dc := d, sda := v.getLsbD k } :: sentSamples w v d k

/-- The bit loop, while the panel is selected, adds its samples to the frame and completes none. -/
theorem framesFrom_sendBits (w : Nat) (v : BitVec w) (n : Nat) (p : Pins) (acc : List Sample) (rest : List Event)
    (hcs : p.csN = false) :
    framesFrom p acc (sendBits w v n ++ rest)
      = framesFrom (p.afterAll (sendBits w v n)) (acc ++ sentSamples w v p.dc n) rest := by
  induction n generalizing p acc with
  | zero => simp [sendBits, sentSamples]
  | succ n ih =>
    obtain ⟨a, b, c, d, e⟩ := p
    simp only at hcs
    subst hcs
    cases a <;> simp [sendBits, sentSamples, framesFrom, wireEvent, Pins.after, Pins.set, ih]

/-- A transmission from a deselected panel completes exactly one frame: its bits, most significant first (R36, R71). -/
theorem framesFrom_send (w : Nat) (v : BitVec w) (d : Bool) (p : Pins) (acc : List Sample) (rest : List Event)
    (hcs : p.csN = true) :
    framesFrom p acc (send w v d ++ rest)
      = sentSamples w v d w :: framesFrom (p.afterAll (send w v d)) [] rest := by
  obtain ⟨a, b, c, d', e⟩ := p
  simp only at hcs
  subst hcs
  simp only [send, List.cons_append, framesFrom, List.append_assoc]
  simp [wireEvent, Pins.after, Pins.set, framesFrom_sendBits, framesFrom, Pins.afterAll_append, afterAll_sendBits]
  by_cases hw : w = 0 <;> simp [hw]

end Sys2Proof.Machine
end

