-- ==== Sys2Proof/Laws/Sequencer.lean ====
section
/-! SUPPORT. What a step can do, once and for all, and what performing a whole trace does. -/

namespace Sys2Proof.Machine

/-- Every meaning is the start of its command's trace (R69). -/
theorem exec_eq_trace (i : Instr) (s : State) : exec i s = .next { s with pending := traceOf s.cfg i } := by
  cases i <;> rfl

theorem accept_legal (w : CmdWord) (i : Instr) (s : State) (h : decode w = .legal i) :
    accept w s = exec i (s.latch w) := by
  simp [accept, h]

theorem accept_illegal (w : CmdWord) (why : Illegal) (s : State) (h : decode w = .illegal why) :
    accept w s = .next (raiseIllegal why s.portTake) := by
  simp [accept, h]

theorem step_of_reset (s : State) (h : s.rstBlk = true) : step s = .next s.blockReset.portHold := by
  simp [step, edge, h]

theorem step_of_pending (s : State) (e : Event) (rest : List Event) (hr : s.rstBlk = false)
    (hp : s.pending = e :: rest) : step s = .next (s.performNext e rest).portHold := by
  simp [step, edge, hr, hp]

theorem step_of_idle (s : State) (hr : s.rstBlk = false) (hp : s.pending = []) : step s = idleEdge s := by
  simp [step, edge, hr, hp]

/-- Everything a step can do (R25, R26, R117, R126). -/
theorem step_cases (s t : State) (h : step s = .next t) :
    (s.rstBlk = true ∧ t = s.blockReset.portHold) ∨
    (s.rstBlk = false ∧ ∃ e rest, s.pending = e :: rest ∧ t = (s.performNext e rest).portHold) ∨
    (s.rstBlk = false ∧ s.pending = [] ∧ s.offered = none ∧ t = s.portHold) ∨
    (s.rstBlk = false ∧ s.pending = [] ∧ ∃ w i, s.offered = some w ∧ decode w = .legal i ∧
      t = { s.latch w with pending := traceOf s.cfg i }) ∨
    (s.rstBlk = false ∧ s.pending = [] ∧ ∃ w why, s.offered = some w ∧ decode w = .illegal why ∧
      t = raiseIllegal why s.portTake) := by
  cases hr : s.rstBlk with
  | true =>
    rw [step_of_reset s hr] at h
    injection h with h
    exact .inl ⟨rfl, h.symm⟩
  | false =>
    right
    cases hp : s.pending with
    | cons e rest =>
      rw [step_of_pending s e rest hr hp] at h
      injection h with h
      exact .inl ⟨rfl, e, rest, rfl, h.symm⟩
    | nil =>
      right
      rw [step_of_idle s hr hp] at h
      unfold idleEdge at h
      cases ho : s.offered with
      | none =>
        simp only [ho] at h
        injection h with h
        exact .inl ⟨rfl, rfl, rfl, h.symm⟩
      | some w =>
        right
        simp only [ho] at h
        cases hd : decode w with
        | legal i =>
          rw [accept_legal w i s hd, exec_eq_trace] at h
          injection h with h
          exact .inl ⟨rfl, rfl, w, i, rfl, hd, by simpa using h.symm⟩
        | illegal why =>
          rw [accept_illegal w why s hd] at h
          injection h with h
          exact .inr ⟨rfl, rfl, w, why, rfl, hd, h.symm⟩

/-! ### Performing a whole trace -/

@[simp] theorem performAll_nil (s : State) : s.performAll [] = s := rfl
@[simp] theorem performAll_cons (e : Event) (t : List Event) (s : State) :
    s.performAll (e :: t) = (s.performEvent e).performAll t := rfl

theorem performAll_append (a b : List Event) (s : State) : s.performAll (a ++ b) = (s.performAll a).performAll b := by
  induction a generalizing s with
  | nil => rfl
  | cons e a ih => simp [ih]

@[simp] theorem performAll_pins (t : List Event) (s : State) : (s.performAll t).pins = s.pins.afterAll t := by
  induction t generalizing s with
  | nil => rfl
  | cons e t ih => simp [ih]
@[simp] theorem performAll_cfg (t : List Event) (s : State) : (s.performAll t).cfg = s.cfg := by
  induction t generalizing s with
  | nil => rfl
  | cons e t ih => simp [ih]
@[simp] theorem performAll_cur (t : List Event) (s : State) : (s.performAll t).cur = s.cur := by
  induction t generalizing s with
  | nil => rfl
  | cons e t ih => simp [ih]
@[simp] theorem performAll_illegal (t : List Event) (s : State) : (s.performAll t).illegal = s.illegal := by
  induction t generalizing s with
  | nil => rfl
  | cons e t ih => simp [ih]
@[simp] theorem performAll_host (t : List Event) (s : State) : (s.performAll t).host = s.host := by
  induction t generalizing s with
  | nil => rfl
  | cons e t ih => simp [ih]
@[simp] theorem performAll_pending (t : List Event) (s : State) : (s.performAll t).pending = s.pending := by
  induction t generalizing s with
  | nil => rfl
  | cons e t ih => simp [ih]
@[simp] theorem performAll_free (t : List Event) (s : State) : (s.performAll t).free = s.free + t.length := by
  induction t generalizing s with
  | nil => rfl
  | cons e t ih => simp [ih]; omega

/-- Performing an event does not look at what is pending. -/
theorem performEvent_setPending (e : Event) (s : State) (r : List Event) :
    ({ s with pending := r } : State).performEvent e = { s.performEvent e with pending := r } := by
  cases e <;> rfl

theorem performAll_setPending (t : List Event) (s : State) (r : List Event) :
    ({ s with pending := r } : State).performAll t = { s.performAll t with pending := r } := by
  induction t generalizing s with
  | nil => rfl
  | cons e t ih =>
    rw [performAll_cons, performEvent_setPending]
    exact ih (s.performEvent e)

/-! ### Runs with a host that asserts no reset -/

@[simp] theorem runSteps_zero (s : State) : runSteps 0 s = .next s := rfl

theorem runSteps_succ (k : Nat) (s t : State) (h : step s = .next t) : runSteps (k + 1) s = runSteps k t := by
  simp [runSteps, h]

/-- A run of `j + k` steps that gets through its first `j` goes on for `k` more. -/
theorem runSteps_add (j k : Nat) (s t : State) (h : runSteps j s = .next t) : runSteps (j + k) s = runSteps k t := by
  induction j generalizing s with
  | zero =>
    injection h with h
    rw [Nat.zero_add, h]
  | succ j ih =>
    rw [show j + 1 + k = (j + k) + 1 by omega]
    cases hs : step s with
    | next u =>
      rw [runSteps_succ _ _ _ hs] at h ⊢
      exact ih u h
    | fault r => simp [runSteps, hs] at h
    | refused r => simp [runSteps, hs] at h

/-- A host program at the port: no reset, and the port holds still while the block is busy. -/
theorem hostProgram_portHold (ws : List CmdWord) (s : State) (h : s.host = hostProgram ws) : s.portHold = s := by
  have hn : nextPorts (hostProgram ws) = hostProgram ws := by
    rcases ws with _ | ⟨w, _ | ⟨v, ws⟩⟩ <;> rfl
  unfold State.portHold
  rw [h, hn, ← h]

theorem hostProgram_rstBlk (ws : List CmdWord) (s : State) (h : s.host = hostProgram ws) : s.rstBlk = false := by
  unfold State.rstBlk
  cases ws <;> simp [h, hostProgram]

/-- With a host program at the port, everything pending is performed, one event a step (R26, R51). -/
theorem run_pending (ws : List CmdWord) (e : Event) (t : List Event) (s : State) (hh : s.host = hostProgram ws)
    (hp : s.pending = e :: t) :
    runSteps (t.length + 1) s
      = .next ({ s.performAll (e :: t) with pending := [] } : State).settleInit := by
  induction t generalizing e s with
  | nil =>
    rw [runSteps_succ _ _ _ (step_of_pending s e [] (hostProgram_rstBlk ws s hh) hp), List.length_nil, runSteps_zero]
    congr 1
    rw [hostProgram_portHold ws _ (by simpa using hh)]
    simp only [State.performNext, performEvent_setPending, performAll_cons, performAll_nil]
  | cons f t ih =>
    rw [runSteps_succ _ _ _ (step_of_pending s e (f :: t) (hostProgram_rstBlk ws s hh) hp)]
    rw [hostProgram_portHold ws _ (by simpa using hh)]
    rw [List.length_cons, ih f _ (by simpa using hh) (by simp)]
    have h1 : s.performNext e (f :: t) = { s.performEvent e with pending := f :: t } := by
      simp [State.performNext, State.settleInit, performEvent_setPending]
    rw [h1]
    congr 2
    rw [performAll_setPending]
    rfl

end Sys2Proof.Machine
end

