-- ==== Sys2Proof/Tests/Slice0.lean ====
section
/-! SUPPORT. Tests. The expected values are those of 95_test_vectors.md (its vector is named in each docstring) or of the rule named. Then, for every statement with hypotheses, a witness that meets them. -/

namespace Sys2Proof.Tests

open Sys2Proof Sys2Proof.Machine

/-! ### Helpers -/

/-- The example configuration of I-4: `T_EX`, MADCTL_PARAM[0] = 0x00, MADCTL_PARAM[3] = 0x60, the defaults of R5. -/
def tCfg : Config :=
  { cmdCaset := 0x2A, cmdRaset := 0x2B, cmdRamwr := 0x2C, cmdMadctl := 0x36, cmdColmod := 0x3A, colmodRgb565 := 0x05,
    cmdSlpout := 0x11, cmdDispon := 0x29, madctl0 := 0x00, madctl1 := 0x20, madctl2 := 0x40, madctl3 := 0x60,
    initTable :=
      [⟨0x36, [.orient], 0⟩, ⟨0x3A, [.lit 0x05], 0⟩, ⟨0x11, [], 120⟩, ⟨0x29, [], 20⟩],
    lineCmp := .ge, lineNegDy := .horizontalMag, ticksPerMs := 1 }

/-- Start state S0 of section 8: block reset done, INIT done. -/
def tReady : State :=
  { cfg := tCfg, pins := { sclk := true, sda := true, csN := true, dc := false, rstN := true }, illegal := false,
    cur := 0, pending := [], host := [],
    panel := { xs := 0, ys := 0, xe := 0, ye := 0, px := 0, py := 0, mode := .other, mem := [], memUnknown := false,
               frame := [], stage := .ready, owed := 0 },
    free := 0 }

/-- S0 with a word offered. -/
def tOffer (w : CmdWord) : State := { tReady with host := [{ rstBlk := false, offer := some w }] }

/-- S0 with block reset asserted. -/
def tRst : State := { tReady with host := [{ rstBlk := true, offer := none }] }

/-- The state after one step. -/
def after1 (s : State) : State :=
  match step s with
  | .next t => t
  | .fault _ => s
  | .refused _ => s

/-! ### Decoding: words of 95_test_vectors.md section 2 -/

/-- E-1, E-10. -/
theorem test_decode_nop_panelReset :
    decode 0x000000000000000000000000#96 = .legal .nop ∧ decode 0x000000000000000000000004#96 = .legal .panelReset := by
  decide
/-- E-2, E-6, E-7. -/
theorem test_decode_sends :
    decode 0x000000000000000000002A01#96 = .legal (.sendCmd8 0x2A) ∧
    decode 0x00000000000000000000A502#96 = .legal (.sendData8 0xA5) ∧
    decode 0x000000000000000000F80003#96 = .legal (.sendData16 0xF800) := by decide
/-- E-13, E-15. -/
theorem test_decode_delay_init :
    decode 0x000000000000000000FFFF05#96 = .legal (.delay 65535) ∧
    decode 0x000000000000000000000306#96 = .legal (.init 3) := by decide
/-- E-17. -/
theorem test_decode_setWindow : decode 0x0000000015000B0014000A07#96 = .legal (.setWindow 10 20 11 21) := by decide
/-- E-20, with x = −1 and y = −1. -/
theorem test_decode_drawPoint :
    decode 0x00000000001234FFFFFFFF08#96 = .legal (.drawPoint 0xFFFF 0xFFFF 0x1234) ∧ sext16 0xFFFF = -1 := by decide
/-- E-23. -/
theorem test_decode_drawLine :
    decode 0x00FFFF00010002FFFFFFFE09#96 = .legal (.drawLine 0xFFFE 0xFFFF 2 1 0xFFFF) := by decide
/-- E-26. -/
theorem test_decode_drawRect : decode 0x0007E000020000000000030A#96 = .legal (.drawRect 3 0 0 2 0x07E0) := by decide
/-- E-31, with x0 = −32768, y0 = 32767, r = 32767. -/
theorem test_decode_drawCircle :
    decode 0x00000000007FFF7FFF80000B#96 = .legal (.drawCircle 0x8000 0x7FFF 0x7FFF 0) ∧ sext16 0x8000 = -32768 := by
  decide
/-- E-34. -/
theorem test_decode_clear : decode 0x00000000000000000007E00C#96 = .legal (.clear 0x07E0) := by decide

/-- X-1, X-2, X-5: reserved opcodes, which come before the must-be-zero bits. -/
theorem test_reserved_opcode :
    decode 0x00000000000000000000000D#96 = .illegal (.reservedOpcode 0x0D) ∧
    decode 0x0000000000000000000000FF#96 = .illegal (.reservedOpcode 0xFF) ∧
    decode 0x01000000000000000000000D#96 = .illegal (.reservedOpcode 0x0D) := by decide
/-- X-3, X-4, X-6, X-8. -/
theorem test_reserved_bits :
    decode 0x000000000000000000010001#96 = .illegal (.nonzeroReservedBits 0x10000) ∧
    decode 0x010000000000000000000000#96 = .illegal (.nonzeroReservedBits 0x010000000000000000000000) ∧
    decode 0x000000000000000000000100#96 = .illegal (.nonzeroReservedBits 0x100) ∧
    decode 0x000000000000000000000406#96 = .illegal (.nonzeroReservedBits 0x400) := by decide
/-- X-9, X-10, X-11, X-12. -/
theorem test_reserved_fields :
    decode 0x000001000000000000000007#96 = .illegal (.nonzeroReservedBits 0x000001000000000000000000) ∧
    decode 0x000000000100000000000008#96 = .illegal (.nonzeroReservedBits 0x000000000100000000000000) ∧
    decode 0x00000100000000000000000B#96 = .illegal (.nonzeroReservedBits 0x000001000000000000000000) ∧
    decode 0x00000000000000000100000C#96 = .illegal (.nonzeroReservedBits 0x000000000000000001000000) := by decide
/-- The near misses of section 2.2, which are legal. -/
theorem test_near_misses :
    decode 0x000000000000000000000106#96 = .legal (.init 1) ∧
    decode 0x000000000000010000000008#96 = .legal (.drawPoint 0 0 1) ∧
    decode 0x00000000000000000001010C#96 = .legal (.clear 0x0101) ∧
    decode 0x000000000000000000010005#96 = .legal (.delay 256) := by decide
/-- E-22, encoded. -/
theorem test_encode_drawLine : encode (.drawLine 0 0 3 1 0xF800) = 0x00F800000100030000000009#96 := by decide
/-- A word of the table's numbering, read and refused. -/
theorem test_decodeTableWord :
    decodeTableWord 96 0x7805 = some (.delay 120) ∧ decodeTableWord 96 0x0D = none := by decide

/-! ### Well-formedness: for every check an ill-formed term (R64, R84) -/

/-- The refusals of section 2.2: u8, u2, s16 and u16 range, operand count, unknown mnemonic. -/
theorem test_ill_formed_statements :
    (AsmStmt.mk "SEND_CMD8" [256]).check = some .operandRange ∧
    (AsmStmt.mk "INIT" [4]).check = some .operandRange ∧
    (AsmStmt.mk "DRAW_POINT" [32768, 0, 0]).check = some .operandRange ∧
    (AsmStmt.mk "SET_WINDOW" [-1, 0, 0, 0]).check = some .operandRange ∧
    (AsmStmt.mk "DRAW_POINT" [1, 2]).check = some .operandCount ∧
    (AsmStmt.mk "DRAW_TRIANGLE" [0]).check = some .unknownMnemonic := by decide
/-- A well-formed one, and the empty `PANEL_CMD`. -/
theorem test_well_formed_statement :
    (AsmStmt.mk "DRAW_LINE" [-2, -1, 2, 1, 65535]).wf = true ∧ (AsmStmt.mk "PANEL_CMD" []).wf = false := by decide
/-- I-4: the example table is admitted. -/
theorem test_config_wf : tCfg.wf = true := by decide
/-- R84 (a): no orientation entry; two of them; one with a second parameter. -/
theorem test_config_orient :
    { tCfg with initTable := [⟨0x3A, [.lit 0x05], 0⟩, ⟨0x11, [], 120⟩, ⟨0x29, [], 20⟩] }.orientOk = false ∧
    { tCfg with initTable := ⟨0x36, [.orient], 0⟩ :: tCfg.initTable }.orientOk = false ∧
    { tCfg with initTable := [⟨0x36, [.orient, .lit 0], 0⟩] }.orientOk = false := by decide
/-- R84 (b): the pixel format missing. -/
theorem test_config_colmod :
    { tCfg with initTable := [⟨0x36, [.orient], 0⟩, ⟨0x11, [], 120⟩, ⟨0x29, [], 20⟩] }.colmodOk = false := by decide
/-- R84 (c): the last two entries in the other order. -/
theorem test_config_tail :
    { tCfg with initTable := [⟨0x36, [.orient], 0⟩, ⟨0x3A, [.lit 0x05], 0⟩, ⟨0x29, [], 20⟩, ⟨0x11, [], 120⟩] }.tailOk
      = false := by decide
/-- R84 (d): a wait elsewhere. R121: a time base of zero. -/
theorem test_config_waits_ticks :
    { tCfg with initTable := ⟨0x01, [], 5⟩ :: tCfg.initTable }.waitsOk = false ∧
    { tCfg with ticksPerMs := 0 }.wf = false := by decide

/-! ### One step of each command -/

/-- NOP, I-1: nothing pending, nothing changed, the word taken from the port. -/
theorem test_nop : after1 (tOffer 0) = { tReady with cur := 0 } := by decide
/-- SEND_CMD8, B-1: the 27 events listed there. -/
theorem test_sendCmd8 :
    (after1 (tOffer 0x2A01)).pending =
      [.w .csN false, .w .dc false,
       .w .sclk false, .w .sda false, .w .sclk true, .w .sclk false, .w .sda false, .w .sclk true,
       .w .sclk false, .w .sda true, .w .sclk true, .w .sclk false, .w .sda false, .w .sclk true,
       .w .sclk false, .w .sda true, .w .sclk true, .w .sclk false, .w .sda false, .w .sclk true,
       .w .sclk false, .w .sda true, .w .sclk true, .w .sclk false, .w .sda false, .w .sclk true,
       .w .csN true] := by decide
/-- SEND_DATA8, B-2: the byte read is d:05 and the levels after are 1, 1, 1, 1, 1. -/
theorem test_sendData8 :
    byteStream Pins.reset (after1 (tOffer 0x0502)).pending = [.data 0x05] ∧
    Pins.reset.afterAll (after1 (tOffer 0x0502)).pending = ⟨true, true, true, true, true⟩ := by decide
/-- SEND_DATA16, B-3: d:F8 d:00, 51 events, levels 1, 0, 1, 1, 1. -/
theorem test_sendData16 :
    byteStream Pins.reset (after1 (tOffer 0xF80003)).pending = [.data 0xF8, .data 0x00] ∧
    (after1 (tOffer 0xF80003)).pending.length = 51 ∧
    Pins.reset.afterAll (after1 (tOffer 0xF80003)).pending = ⟨true, false, true, true, true⟩ := by decide
/-- PANEL_RESET, I-2. -/
theorem test_panelReset :
    (after1 (tOffer 0x04)).pending = [.w .rstN false, .wait 20, .w .rstN true, .wait 120] := by decide
/-- DELAY, I-3. -/
theorem test_delay :
    (after1 (tOffer 0x7805)).pending = [.wait 120] ∧ (after1 (tOffer 0x05)).pending = [.wait 0] := by decide
set_option maxRecDepth 20000 in
/-- INIT, I-5: 168 events and the byte stream given there. -/
theorem test_init :
    (after1 (tOffer 0x06)).pending.length = 168 ∧
    byteStream Pins.reset (after1 (tOffer 0x06)).pending
      = [.cmd 0x36, .data 0x00, .cmd 0x3A, .data 0x05, .cmd 0x11, .cmd 0x29] := by decide
set_option maxRecDepth 20000 in
/-- INIT, I-6: only the orientation byte differs. -/
theorem test_init_orientation :
    byteStream Pins.reset (after1 (tOffer 0x0306)).pending
      = [.cmd 0x36, .data 0x60, .cmd 0x3A, .data 0x05, .cmd 0x11, .cmd 0x29] := by decide
set_option maxRecDepth 20000 in
/-- SET_WINDOW, W-1: x bounds before y bounds. -/
theorem test_setWindow :
    (after1 (tOffer 0x0000000015000B0014000A07)).pending.length = 285 ∧
    byteStream Pins.reset (after1 (tOffer 0x0000000015000B0014000A07)).pending
      = [.cmd 0x2A, .data 0x00, .data 0x0A, .data 0x00, .data 0x0B,
         .cmd 0x2B, .data 0x00, .data 0x14, .data 0x00, .data 0x15, .cmd 0x2C] := by decide
set_option maxRecDepth 20000 in
/-- DRAW_POINT, W-6: −1 goes out as 0xFFFF. -/
theorem test_drawPoint :
    (after1 (tOffer 0x0000000000FFFF0000FFFF08)).pending.length = 336 ∧
    byteStream Pins.reset (after1 (tOffer 0x0000000000FFFF0000FFFF08)).pending
      = [.cmd 0x2A, .data 0xFF, .data 0xFF, .data 0xFF, .data 0xFF,
         .cmd 0x2B, .data 0x00, .data 0x00, .data 0x00, .data 0x00, .cmd 0x2C, .data 0xFF, .data 0xFF] := by decide
set_option maxRecDepth 50000 in
/-- DRAW_LINE, E-22 with L-1: the points pending after one step. L-2 and L-7: a steep line, and the negative-dy defect. -/
theorem test_drawLine :
    (after1 (tOffer 0x00F800000100030000000009)).pending
      = pointsTrace tCfg [(0, 0), (1, 0), (2, 0), (3, 1)] 0xF800 ∧
    linePoints .ge .horizontalMag 0 0 2 5 = [(0, 0), (0, 1), (0, 2), (1, 3), (1, 4), (2, 5)] ∧
    linePoints .ge .horizontalMag 0 5 3 0 = [(0, 5), (1, 4), (2, 3), (3, 2)] := by
  refine ⟨rfl, by decide, by decide⟩
/-- DRAW_LINE, L-9 and L-15: the other modes. -/
theorem test_linePoints_modes :
    linePoints .ge .vertical 0 1 5 0 = [(0, 1), (1, 1), (2, 1), (3, 1), (4, 1), (5, 0)] ∧
    linePoints .ge .negHorizontalMag 0 1 5 0 = [(0, 1), (1, 1), (2, 1), (3, 1), (4, 1), (5, 1)] ∧
    linePoints .gt .horizontalMag 2 0 0 3 = [(2, 0), (2, 0), (1, 1), (1, 2)] := by decide
set_option maxRecDepth 50000 in
/-- DRAW_RECT, E-25 with R-1: top, left, bottom, right. -/
theorem test_drawRect :
    (after1 (tOffer 0x00001F00010002000000000A)).pending =
      pointsTrace tCfg [(0, 0), (1, 0), (2, 0), (0, 0), (0, 1), (0, 1), (1, 1), (2, 1), (2, 0), (2, 1)] 0x001F := rfl
/-- DRAW_RECT, R-4: the sides that the defect leaves out. -/
theorem test_rectPoints_defect :
    rectPoints tCfg 0 2 2 0 = [(0, 2), (1, 2), (2, 2), (0, 2), (0, 0), (1, 0), (2, 0), (2, 2)] := by decide
/-- DRAW_CIRCLE, C-1, C-2, C-8. -/
theorem test_circlePasses :
    circlePasses (-1) = [] ∧ circlePasses 0 = [(0, 0)] ∧
    circlePasses 6 = [(0, 6), (1, 5), (2, 5), (3, 5), (4, 4)] := by decide
set_option maxRecDepth 50000 in
/-- DRAW_CIRCLE, E-28 with C-15: the order of the eight points. -/
theorem test_drawCircle :
    (after1 (tOffer 0x000000FFFF0002000A000A0B)).pending =
      pointsTrace tCfg
        [(12, 10), (12, 10), (8, 10), (8, 10), (10, 12), (10, 8), (10, 12), (10, 8),
         (11, 11), (11, 9), (9, 11), (9, 9), (11, 11), (11, 9), (9, 11), (9, 9)] 0xFFFF := rfl
/-- CLEAR, K-1: its first event, and what is left of it after one. -/
theorem test_clear_starts : (after1 (tOffer 0xF8000C)).pending.head? = some (.w .csN false) := by decide
/-- CLEAR, K-1: 285 + 57 600·51 events. -/
theorem test_clear_length : (traceClear tCfg 0xF800).length = 2937885 := by
  simp [traceClear, window, Config.panelW, Config.panelH]

/-- X-R1, P4: an illegal word sets ILLEGAL and nothing else. -/
theorem test_illegal_word : after1 (tOffer 0x0D) = { tReady with illegal := true } := by decide
/-- X-R2: a block reset in the middle of a transmission. -/
theorem test_block_reset :
    (after1 { tRst with pins := ⟨false, false, false, true, true⟩, pending := [.w .sda true] }).pins
      = ⟨false, false, true, false, true⟩ ∧
    (after1 { tRst with pins := ⟨false, false, false, true, true⟩, pending := [.w .sda true] }).status = 0 := by decide
/-- R13, R25, R126: a block reset over a word that waits at the port; the word is offered again after it. -/
theorem test_block_reset_over_waiting_word :
    (after1 { tReady with
        pending := [.wait 1, .wait 2],
        host := [{ rstBlk := false, offer := some 0x04 }, { rstBlk := true, offer := none }] }).rstBlk = true ∧
    (after1 (after1 { tReady with
        pending := [.wait 1, .wait 2],
        host := [{ rstBlk := false, offer := some 0x04 }, { rstBlk := true, offer := none }] })).host
      = [{ rstBlk := false, offer := some 0x04 }] := by decide
/-- R28: the status after reset. -/
theorem test_reset_status : State.reset.status = 0 ∧ State.reset.pins = ⟨false, false, true, false, true⟩ := by decide

/-! ### The receiver -/

/-- W-1 and W-3, as bytes: window, pointer after the window set, the cell of the first pixel. -/
theorem test_receiver_window :
    (tReady.panel.receiveAll tCfg 0 (windowBytes tCfg 10 20 11 21)).xe = 11 ∧
    (tReady.panel.receiveAll tCfg 0 (windowBytes tCfg 10 20 11 21)).py = 20 ∧
    (tReady.panel.receiveAll tCfg 0 (windowBytes tCfg 10 20 11 21 ++ halfBytes 0x1234)).readCell 10 20 = .ok 0x1234 ∧
    (tReady.panel.receiveAll tCfg 0 (windowBytes tCfg 10 20 11 21 ++ halfBytes 0x1234)).readCell 11 20
      = .error .unwrittenCell := by decide
/-- W-4: the third word to a window of two cells. -/
theorem test_receiver_exhausted :
    (tReady.panel.receiveAll tCfg 0 (windowBytes tCfg 0 0 1 0 ++ halfBytes 1 ++ halfBytes 2)).readCell 1 0 = .ok 2 ∧
    (tReady.panel.receiveAll tCfg 0 (windowBytes tCfg 0 0 1 0 ++ halfBytes 1 ++ halfBytes 2 ++ halfBytes 3)).readCell 1 0
      = .error .unknownCell := by decide
/-- W-5: another command ends the write mode, and its data are discarded. -/
theorem test_receiver_interrupted :
    (tReady.panel.receiveAll tCfg 0
      (windowBytes tCfg 0 0 1 1 ++ halfBytes 1 ++ [.cmd 0x00] ++ halfBytes 2)).mem = [(0, 0x00), (1, 0x01)] := by decide
/-- W-8: the receiver sees bytes, not transmissions. -/
theorem test_receiver_bytes :
    (tReady.panel.receiveAll tCfg 0
      ([.cmd 0x2A] ++ halfBytes 3 ++ halfBytes 4 ++ [.cmd 0x2B, .data 0, .data 7, .data 0, .data 7, .cmd 0x2C,
        .data 0x12, .data 0x34] ++ halfBytes 0x5678)).readCell 4 7 = .ok 0x5678 := by decide

/-- R42: a data byte after a complete address set leaves the bounds, and a window set on them still takes a pixel. -/
theorem test_receiver_bounds_persist :
    (tReady.panel.receiveAll tCfg 0
      ([.cmd 0x2A] ++ halfBytes 3 ++ halfBytes 4 ++ [.data 9, .cmd 0x2B] ++ halfBytes 7 ++ halfBytes 7 ++ [.data 9, .cmd 0x2C]
        ++ halfBytes 0x5678)).readCell 3 7 = .ok 0x5678 := by decide
/-- R88, R131, U12: a draw before INIT leaves no bounds and no mode known. X-R3: an idle block reset leaves the cells, and
the wait that is owed. -/
theorem test_receiver_unready :
    (Panel.reset.receiveAll tCfg 0 (windowBytes tCfg 0 0 1 0 ++ halfBytes 1)).mode = .unspecified ∧
    (Panel.reset.receiveAll tCfg 0 (windowBytes tCfg 0 0 1 0 ++ halfBytes 1)).readCell 0 0 = .error .unknownCell ∧
    ({ tReady.panel with mem := [(0, 1), (1, 2)], owed := 7 }.blockReset 0 true).readCell 0 0 = .ok 0x0102 ∧
    ({ tReady.panel with owed := 7 }.blockReset 0 true).owed = 7 := by decide

/-! ### Text (R64 to R66) -/

/-- The examples of R64, and a pseudo-instruction of R65. -/
theorem test_assemble_line :
    assembleLine "DRAW_LINE 0, 0, 3, 1, 0xF800 ; a line" = .ok [.drawLine 0 0 3 1 0xF800] ∧
    assembleLine "HLINE -1, 3, 2, 7" = .ok [.drawLine 0xFFFF 2 3 2 7] := by decide
/-- R66, on E-20. -/
theorem test_hexWord :
    hexWord 0x00000000001234FFFFFFFF08#96 = "00000000001234FFFFFFFF08".toList := by decide

/-! ### Witnesses: what meets the hypotheses of each statement -/

/-- A word offered at an idle block, with a continuation. -/
def tOfferThen (w : CmdWord) (rest : List HostIn) : State :=
  { tReady with host := { rstBlk := false, offer := some w } :: rest }

/-- DRAW_POINT 5, 5, 0x001F just accepted (X-R2). -/
def tDrawing : State :=
  { tReady with cur := 0x0000000000001F0005000508, pending := traceDrawPoint tCfg 5 5 0x001F }

/-- S0 meets the premises of a claim about panel content. -/
theorem witness_contentReady : contentReady tReady := by
  refine ⟨by decide, rfl, rfl, ?_⟩
  unfold commandsApart
  decide

/-- The defaults of R5 keep the command numbers apart. -/
theorem witness_commandsApart_reset : commandsApart State.reset.cfg := by
  unfold commandsApart
  decide

/-- EncodeOfDecodeIsIdentity. -/
theorem witness_EncodeOfDecodeIsIdentity :
    decode 0x00F800000100030000000009#96 = .legal (.drawLine 0 0 3 1 0xF800) := by decide

/-- ReservedOpcodesAreIllegal: both ends of the range. -/
theorem witness_ReservedOpcodesAreIllegal :
    0x0D ≤ (fieldOp 0x00000000000000000000000D#96).toNat ∧ 0x0D ≤ (fieldOp 0x0000000000000000000000FF#96).toNat := by
  decide

/-- MustBeZeroBitsDecideLegality: both clauses, at 255 and 256 for SEND_CMD8 and at 3 and 4 for INIT. -/
theorem witness_MustBeZeroBitsDecideLegality :
    fieldOp 0xFF01#96 = Op.sendCmd8.number ∧ mustBeZeroClear .sendCmd8 0xFF01#96 ∧
    fieldOp 0x10001#96 = Op.sendCmd8.number ∧ ¬ mustBeZeroClear .sendCmd8 0x10001#96 ∧
    fieldOp 0x306#96 = Op.init.number ∧ mustBeZeroClear .init 0x306#96 ∧
    fieldOp 0x406#96 = Op.init.number ∧ ¬ mustBeZeroClear .init 0x406#96 := by
  unfold mustBeZeroClear
  decide

/-- AdmittedTablesAreTheBuiltOnes: a configuration that is admitted and one that is not. -/
theorem witness_AdmittedTablesAreTheBuiltOnes :
    0 < tCfg.ticksPerMs ∧ tCfg.wf = true ∧
    tCfg.initTable = tCfg.buildTable ⟨[], [], [], false⟩ ∧
    0 < { tCfg with initTable := [] }.ticksPerMs ∧ { tCfg with initTable := [] }.wf = false := by decide

/-- StatusIsBusyAndStickyIllegal: a step of each kind. -/
theorem witness_StatusIsBusyAndStickyIllegal :
    step (tOffer 0x0D) = .next (after1 (tOffer 0x0D)) ∧ step tRst = .next (after1 tRst) ∧
    step tDrawing = .next (after1 tDrawing) := ⟨rfl, rfl, rfl⟩

/-- AcceptanceFollowsTheHandshake: ready with a legal word, ready with an illegal one, busy with a word offered, idle
with none. -/
theorem witness_AcceptanceFollowsTheHandshake :
    ((tOffer 0x04).cmdReady = true ∧ (tOffer 0x04).offered = some 0x04 ∧ decode 0x04#96 = .legal .panelReset) ∧
    ((tOffer 0x0D).cmdReady = true ∧ (tOffer 0x0D).offered = some 0x0D ∧
      decode 0x0D#96 = .illegal (.reservedOpcode 0x0D)) ∧
    ({ tOffer 0x04 with pending := [.wait 1] }.rstBlk = false ∧ { tOffer 0x04 with pending := [.wait 1] }.pending ≠ [] ∧
      { tOffer 0x04 with pending := [.wait 1] }.offered = some 0x04) ∧
    (tReady.rstBlk = false ∧ tReady.pending = [] ∧ tReady.offered = none) := by decide

/-- StepRunsTheDecodedCommand, both clauses. -/
theorem witness_StepRunsTheDecodedCommand :
    (tOfferThen 0x7805 []).pending = [] ∧
    (tOfferThen 0x7805 []).host = { rstBlk := false, offer := some 0x7805 } :: [] ∧
    decode 0x7805#96 = .legal (.delay 120) ∧ decodeTableWord 96 0x7805 = some (.delay 120) := by decide

/-- IllegalWordRaisesIllegal (and it is ready at once: the next edge asserts no reset). -/
theorem witness_IllegalWordRaisesIllegal :
    (tOfferThen 0x10001 []).pending = [] ∧
    (tOfferThen 0x10001 []).host = { rstBlk := false, offer := some 0x10001 } :: [] ∧
    decode 0x10001#96 = .illegal (.nonzeroReservedBits 0x10000) := by decide

/-- IllegalSticksUntilBlockReset, each clause. -/
theorem witness_IllegalSticksUntilBlockReset :
    ({ tDrawing with illegal := true }.rstBlk = false ∧
      step { tDrawing with illegal := true } = .next (after1 { tDrawing with illegal := true })) ∧
    ({ tOfferThen 0x0D [] with illegal := true }.pending = [] ∧ decode 0x0D#96 = .illegal (.reservedOpcode 0x0D)) ∧
    tRst.rstBlk = true := ⟨⟨rfl, rfl⟩, ⟨rfl, by decide⟩, rfl⟩

/-- PerformingOneEvent: a pin write and a wait. -/
theorem witness_PerformingOneEvent :
    (tDrawing.rstBlk = false ∧ tDrawing.pending = .w .csN false :: tDrawing.pending.tail) ∧
    ({ tReady with pending := [.wait 5] }.rstBlk = false ∧ { tReady with pending := [.wait 5] }.pending = [.wait 5]) :=
  ⟨⟨rfl, rfl⟩, rfl, rfl⟩

/-- BlockResetSetsEveryResetValue: reset asserted while a transmission is under way and a word is offered, and a state
whose next edge is out of reset. -/
theorem witness_BlockResetSetsEveryResetValue :
    { tDrawing with host := [{ rstBlk := true, offer := some 0x04 }] }.rstBlk = true ∧
    { tDrawing with host := [{ rstBlk := true, offer := some 0x04 }] }.offered = some 0x04 ∧
    (after1 { tDrawing with host := [{ rstBlk := true, offer := some 0x04 }] }).rstBlk = false := ⟨rfl, rfl, rfl⟩

/-- A host that asserts block reset after the 30th event (X-R2). -/
def tCut : State :=
  { tDrawing with host := List.replicate 30 { rstBlk := false, offer := none } ++ [{ rstBlk := true, offer := none }] }

set_option maxRecDepth 50000 in
/-- BlockResetCutsTheTraceToAPrefix: X-R2, cut after 30 events with CS_N = 0, and a cut after none with CS_N = 1. -/
theorem witness_BlockResetCutsTheTraceToAPrefix :
    30 ≤ tCut.pending.length ∧ (tCut.pins.afterAll (tCut.pending.take 30)).csN = false ∧
    tCut.host = List.replicate 30 { rstBlk := false, offer := none } ++ [{ rstBlk := true, offer := none }] ∧
    tRst.host = List.replicate 0 { rstBlk := false, offer := none } ++ [{ rstBlk := true, offer := none }] ∧
    0 ≤ tRst.pending.length := ⟨by decide, by decide, rfl, rfl, by decide⟩

/-- ConfigurationNeverChanges, PanelNeverReachesTheBlock. -/
theorem witness_step_twice :
    step tDrawing = .next (after1 tDrawing) ∧
    step { tDrawing with panel := Panel.reset } = .next (after1 { tDrawing with panel := Panel.reset }) := ⟨rfl, rfl⟩

/-- EveryStepKeepsTheInvariant: the invariant holds in the middle of a command, and the state steps. -/
theorem witness_EveryStepKeepsTheInvariant : Inv tDrawing ∧ step tDrawing = .next (after1 tDrawing) := by
  refine ⟨⟨by decide, ?_, ?_, by decide, by simp [memoryInRange, tDrawing, tReady], by decide⟩, rfl⟩
  · intro _
    exact ⟨.drawPoint 5 5 0x001F, [], by decide, rfl⟩
  · constructor <;> decide

/-- HostProgramIsObservedAsItsTraces: P4. -/
theorem witness_HostProgramIsObservedAsItsTraces :
    { tReady with host := hostProgram [0x0D, 0x10001, 0x00, 0x2A01] }.pending = [] ∧
    { tReady with host := hostProgram [0x0D, 0x10001, 0x00, 0x2A01] }.host = hostProgram [0x0D, 0x10001, 0x00, 0x2A01] :=
  ⟨rfl, rfl⟩

/-- SendIsTheListedEvents. -/
theorem witness_SendIsTheListedEvents : (8 = 8 ∨ 8 = 16) ∧ (16 = 8 ∨ 16 = 16) := by decide

/-- SendIsSampledMostSignificantBitFirst, SendCommandsSendOneWord, HalfWordIsItsTwoBytes, SetWindowSendsItsBounds: a
deselected panel, with SCLK at either level. -/
theorem witness_deselected : Pins.reset.csN = true ∧ Pins.reset.sclk = false ∧ tReady.pins.csN = true ∧
    tReady.pins.sclk = true := by decide

/-- NopResetPulseAndDelay, its last clause. -/
theorem witness_NopResetPulseAndDelay :
    (tOfferThen 0 []).pending = [] ∧ (tOfferThen 0 []).host = { rstBlk := false, offer := some 0 } :: [] := by decide

/-- InitSendsThePulseAndTheTable, OrientationChangesOneByteOfInit. -/
theorem witness_InitSendsThePulseAndTheTable : tReady.cfg.wf = true := by decide

/-- InitLeavesThePanelAddressable: from a panel nothing is known of. -/
theorem witness_InitLeavesThePanelAddressable :
    { tReady with panel := Panel.reset, host := hostProgram [encode (.init 0)] }.cfg.wf = true ∧
    { tReady with panel := Panel.reset, host := hostProgram [encode (.init 0)] }.pending = [] ∧
    { tReady with panel := Panel.reset, host := hostProgram [encode (.init 0)] }.host = hostProgram [encode (.init 0)] := by
  decide

/-- HostBuiltBootLeavesThePanelAddressable, at the least waits. -/
theorem witness_HostBuiltBootLeavesThePanelAddressable :
    tCfg.cmdSlpout ≠ tCfg.cmdDispon ∧ 120 ≤ (120 : Half).toNat ∧ 20 ≤ (20 : Half).toNat ∧
    { tReady with panel := Panel.reset, host := hostProgram [encode .panelReset, encode (.sendCmd8 tCfg.cmdSlpout),
        encode (.delay 120), encode (.sendCmd8 tCfg.cmdDispon), encode (.delay 20)] }.host
      = hostProgram [encode .panelReset, encode (.sendCmd8 tCfg.cmdSlpout), encode (.delay 120),
          encode (.sendCmd8 tCfg.cmdDispon), encode (.delay 20)] ∧
    tReady.pending = [] ∧ tReady.pins.csN = true ∧ tReady.pins.rstN = true := by decide

/-- MissedWaitLosesThePanel: one millisecond short of each wait, and a panel nothing is known of. -/
theorem witness_MissedWaitLosesThePanel :
    contentReady tReady ∧ tReady.cfg.cmdSlpout ≠ tReady.cfg.cmdDispon ∧ 119 < 120 ∧ 19 < 20 ∧
    { tReady with panel := Panel.reset }.panel.addressable = false ∧
    { tReady with panel := Panel.reset }.pins.csN = true :=
  ⟨witness_contentReady, by decide, by decide, by decide, by decide, rfl⟩

/-- PixelStreamCoversTheWindow: W-3, a cell of the window at its corner and one just outside. -/
theorem witness_PixelStreamCoversTheWindow :
    contentReady tReady ∧ boundsValid 10 20 11 21 ∧
    ([1, 2, 3, 4] : List Half).length
      = ((11 : Half).toNat - (10 : Half).toNat + 1) * ((21 : Half).toNat - (20 : Half).toNat + 1) ∧
    inBounds 10 20 11 21 11 21 ∧ ¬ inBounds 10 20 11 21 12 21 := by
  refine ⟨witness_contentReady, ?_, by decide, ?_, ?_⟩
  · unfold boundsValid; decide
  · unfold inBounds; decide
  · unfold inBounds; decide

/-- InvalidWindowLosesTheFrameMemory: W-6, W-7, and one column too many. -/
theorem witness_InvalidWindowLosesTheFrameMemory :
    contentReady tReady ∧ ¬ boundsValid 0xFFFF 0 0xFFFF 0 ∧ ¬ boundsValid 5 0 4 0 ∧ ¬ boundsValid 0 0 240 0 := by
  refine ⟨witness_contentReady, ?_, ?_, ?_⟩ <;> unfold boundsValid <;> decide

/-- ExhaustedWindowLosesTheFrameMemory: W-4. -/
theorem witness_ExhaustedWindowLosesTheFrameMemory :
    contentReady tReady ∧ boundsValid 0 0 1 0 ∧
    ([1, 2, 3] : List Half).length
      = ((1 : Half).toNat - (0 : Half).toNat + 1) * ((0 : Half).toNat - (0 : Half).toNat + 1) + 1 := by
  refine ⟨witness_contentReady, ?_, by decide⟩
  unfold boundsValid
  decide

/-- DrawPointWritesItsCellOnly: Pt-2, the last cell. -/
theorem witness_DrawPointWritesItsCellOnly :
    contentReady (tOffer (encode (.drawPoint 239 239 0x07E0))) ∧
    (tOffer (encode (.drawPoint 239 239 0x07E0))).pending = [] ∧
    (tOffer (encode (.drawPoint 239 239 0x07E0))).host = hostProgram [encode (.drawPoint 239 239 0x07E0)] ∧
    (239 : Half).toNat < 240 := ⟨witness_contentReady, rfl, rfl, by decide⟩

/-- LastWriteWins: a cell of the second list, one of the first only, one of neither. -/
theorem witness_LastWriteWins :
    contentReady tReady ∧ (∀ p ∈ [((0 : Int), (0 : Int)), (239, 239)], onPanel p) ∧
    (∀ p ∈ [((0 : Int), (0 : Int))], onPanel p) ∧
    (((0 : Nat) : Int), ((0 : Nat) : Int)) ∈ [((0 : Int), (0 : Int))] ∧
    ((((239 : Nat) : Int), ((239 : Nat) : Int)) ∉ [((0 : Int), (0 : Int))] ∧
      (((239 : Nat) : Int), ((239 : Nat) : Int)) ∈ [((0 : Int), (0 : Int)), (239, 239)]) ∧
    (((1 : Nat) : Int), ((0 : Nat) : Int)) ∉ [((0 : Int), (0 : Int)), (239, 239)] := by
  refine ⟨witness_contentReady, ?_, ?_, by decide, by decide, by decide⟩ <;> unfold onPanel <;> decide

/-- LinePointsClosedForm: L-2 at its last point, and L-7 under VERTICAL at its first. -/
theorem witness_LinePointsClosedForm :
    ((0 : Int) ≤ 5 ∨ LineNegDy.horizontalMag = .vertical) ∧
    0 < max ((2 : Int) - 0).natAbs ((5 : Int) - 0).natAbs ∧ 5 ≤ max ((2 : Int) - 0).natAbs ((5 : Int) - 0).natAbs ∧
    ((5 : Int) ≤ 0 ∨ LineNegDy.vertical = .vertical) ∧
    0 < max ((3 : Int) - 0).natAbs ((0 : Int) - 5).natAbs ∧ 0 ≤ max ((3 : Int) - 0).natAbs ((0 : Int) - 5).natAbs := by
  decide

/-- LineReachesItsLastPoint: a line and its last two points, major axis y. -/
theorem witness_LineReachesItsLastPoint :
    ((0 : Int) ≤ 5 ∨ LineNegDy.horizontalMag = .vertical) ∧
    (linePoints .ge .horizontalMag 0 0 2 5)[4]? = some (1, 4) ∧
    (linePoints .ge .horizontalMag 0 0 2 5)[4 + 1]? = some (2, 5) ∧
    ((2 : Int) - 0).natAbs ≤ ((5 : Int) - 0).natAbs ∧
    (linePoints .ge .horizontalMag 0 0 3 1)[0]? = some (0, 0) ∧
    (linePoints .ge .horizontalMag 0 0 3 1)[0 + 1]? = some (1, 0) ∧
    ((1 : Int) - 0).natAbs ≤ ((3 : Int) - 0).natAbs := by decide

/-- GtDropsTheLastPoint: the shortest line that has a distance. -/
theorem witness_GtDropsTheLastPoint :
    ((0 : Int) ≤ 0 ∨ LineNegDy.horizontalMag = .vertical) ∧ 0 < lineDistance .horizontalMag 0 0 1 0 := by decide

/-- NegativeDyDefectRunsDiagonally: L-5 and L-8. -/
theorem witness_NegativeDyDefectRunsDiagonally : ((0 : Int) < 1) ∧ ((0 : Int) < 10 ∧ (5 : Int) = 5) := by decide

/-- RectanglePlotsItsCorners: R-3, both clauses. -/
theorem witness_RectanglePlotsItsCorners : tCfg.lineCmp = .ge ∧ ((0 : Int) < 2) ∧ ((3 : Int) ≠ 0) := by decide

/-- DrawCircleSendsItsOctants, its second clause: C-1. -/
theorem witness_DrawCircleSendsItsOctants : (-1 : Int) < 0 := by decide

/-- CirclePointsLieOnTheCircle, CircleIsSymmetric: a point of C-18. -/
theorem witness_CirclePoints : ((2 : Int), (-1 : Int)) ∈ circlePoints 0 0 3 ∧ ((0 : Int) + 2, (0 : Int) + -1) ∈ circlePoints 0 0 3 := by
  decide

/-- ClearFillsEveryCell: the last cell. -/
theorem witness_ClearFillsEveryCell :
    contentReady (tOffer (encode (.clear 0xF800))) ∧ (tOffer (encode (.clear 0xF800))).pending = [] ∧
    (tOffer (encode (.clear 0xF800))).host = hostProgram [encode (.clear 0xF800)] ∧ 239 < 240 :=
  ⟨witness_contentReady, rfl, rfl, by decide⟩

end Sys2Proof.Tests
end

section
/-! PROOFS. What an accepted word does in one step, and the statements of 10_state.md about reset, STATUS, the handshake
and one event. -/

namespace Sys2Proof.Machine

/-! ### The edge that accepts a word (R25) -/

theorem State.cmdReady_iff (s : State) : s.cmdReady = true ↔ s.rstBlk = false ∧ s.pending = [] := by
  simp [State.cmdReady]

/-- A ready block that is offered a word accepts it. -/
theorem step_of_offered (s : State) (w : CmdWord) (hr : s.rstBlk = false) (hp : s.pending = [])
    (ho : s.offered = some w) : step s = accept w s := by
  rw [step_of_idle s hr hp]
  simp [idleEdge, ho]

theorem step_of_legal (s : State) (w : CmdWord) (i : Instr) (hr : s.rstBlk = false) (hp : s.pending = [])
    (ho : s.offered = some w) (hd : decode w = .legal i) :
    step s = .next { s with cur := w, pending := traceOf s.cfg i, host := s.host.tail } := by
  rw [step_of_offered s w hr hp ho, accept_legal w i s hd, exec_eq_trace]
  rfl

theorem step_of_illegal (s : State) (w : CmdWord) (why : Illegal) (hr : s.rstBlk = false) (hp : s.pending = [])
    (ho : s.offered = some w) (hd : decode w = .illegal why) :
    step s = .next { s with illegal := true, pending := [], host := s.host.tail } := by
  rw [step_of_offered s w hr hp ho, accept_illegal w why s hd]
  rfl

/-- An edge with nothing to do moves the host's ports on and nothing else. -/
theorem step_of_noOffer (s : State) (hr : s.rstBlk = false) (hp : s.pending = []) (ho : s.offered = none) :
    step s = .next s.portHold := by
  rw [step_of_idle s hr hp]
  simp [idleEdge, ho]

theorem State.offered_cons (s : State) (h : HostIn) (rest : List HostIn) (hh : s.host = h :: rest) :
    s.offered = h.offer := by
  simp [State.offered, hh]

theorem State.rstBlk_cons (s : State) (h : HostIn) (rest : List HostIn) (hh : s.host = h :: rest) :
    s.rstBlk = h.rstBlk := by
  simp [State.rstBlk, hh]

@[simp] theorem State.portHold_status (s : State) : s.portHold.status = s.status := rfl

theorem wordIllegal_of_legal {w : CmdWord} {i : Instr} (h : decode w = .legal i) : wordIllegal w = false := by
  simp [wordIllegal, h]

theorem wordIllegal_of_illegal {w : CmdWord} {why : Illegal} (h : decode w = .illegal why) : wordIllegal w = true := by
  simp [wordIllegal, h]

theorem decode_of_decodeTableWord {nbits w : Nat} {i : Instr} (h : decodeTableWord nbits w = some i) :
    decode (BitVec.ofNat 96 (w % 2 ^ nbits)) = .legal i := by
  unfold decodeTableWord at h
  split at h
  · rename_i j hj
    injection h with h
    rw [hj, h]
  · cases h

/-! ### The statements -/

/-- Settles O11: the reset state evaluates to the values of R28. -/
theorem stateAfterReset : Obligations.StateAfterReset := by
  unfold Obligations.StateAfterReset
  exact ⟨rfl, rfl, rfl, rfl, rfl, rfl, rfl, rfl, rfl, rfl⟩

/-- Settles O12: the bits of STATUS, and ILLEGAL after each of the five things a step can do. -/
theorem statusIsBusyAndStickyIllegal : Obligations.StatusIsBusyAndStickyIllegal := by
  unfold Obligations.StatusIsBusyAndStickyIllegal
  refine ⟨fun s => ⟨by rw [State.status_bit0, State.busy_iff], State.status_bit1 s⟩, rfl, fun s t h => ?_⟩
  obtain ⟨hr, rfl⟩ | ⟨hr, e, rest, hp, rfl⟩ | ⟨hr, hp, ho, rfl⟩ | ⟨hr, hp, w, i, ho, hd, rfl⟩ |
    ⟨hr, hp, w, why, ho, hd, rfl⟩ := step_cases s t h
  · simp [hr]
  · simp [hr, hp]
  · simp [hr, ho]
  · simp [hr, ho, wordIllegal_of_legal hd]
  · simp [hr, hp, ho, wordIllegal_of_illegal hd]

/-- Settles O13: one lemma about `step` for each clause of R25. -/
theorem acceptanceFollowsTheHandshake : Obligations.AcceptanceFollowsTheHandshake := by
  unfold Obligations.AcceptanceFollowsTheHandshake
  refine fun s => ⟨s.cmdReady_iff, fun w hready ho => ?_, fun w hr hp ho => ?_, fun hr hp ho => ?_⟩
  · obtain ⟨hr, hp⟩ := s.cmdReady_iff.mp hready
    exact ⟨fun i => step_of_legal s w i hr hp ho, fun why => step_of_illegal s w why hr hp ho⟩
  · obtain ⟨e, rest, hp⟩ := List.exists_cons_of_ne_nil hp
    have hwaits : (s.performNext e rest).portHold.offered = some w :=
      State.portHold_offered _ w (by simpa [State.offered] using ho)
    exact ⟨_, step_of_pending s e rest hr hp, hwaits, by simp, by simp [hp]⟩
  · exact ⟨_, step_of_noOffer s hr hp ho, by simp⟩

/-- Settles O14: the accepting edge is `exec` of the decoded command on the latched state. -/
theorem stepRunsTheDecodedCommand : Obligations.StepRunsTheDecodedCommand := by
  unfold Obligations.StepRunsTheDecodedCommand
  constructor
  · intro s w i rest hp hh hd
    rw [step_of_offered s w (s.rstBlk_cons _ _ hh) hp (s.offered_cons _ _ hh), accept_legal w i s hd, State.latch,
      State.portTake, hh]
    rfl
  · intro s nbits w i hd
    rw [State.withFetchWord, step_of_offered _ (BitVec.ofNat 96 (w % 2 ^ nbits)) rfl rfl rfl,
      accept_legal _ i _ (decode_of_decodeTableWord hd)]
    rfl

/-- Settles O17: the step of a busy block is `performNext`, whose frame the laws of the state give. -/
theorem performingOneEvent : Obligations.PerformingOneEvent := by
  unfold Obligations.PerformingOneEvent
  intro s e rest hr hp
  refine ⟨_, step_of_pending s e rest hr hp, by simp, by simp, by simp, by simp, fun q => ?_⟩
  rw [State.portHold_pins, State.performNext_pins]
  cases e with
  | w k l => exact Pins.get_set s.pins k q l
  | wait ms => rfl

/-- No step changes the configuration. -/
theorem step_cfg (s t : State) (h : step s = .next t) : t.cfg = s.cfg := by
  obtain ⟨-, rfl⟩ | ⟨-, e, rest, -, rfl⟩ | ⟨-, -, -, rfl⟩ | ⟨-, -, w, i, -, -, rfl⟩ | ⟨-, -, w, why, -, -, rfl⟩ :=
    step_cases s t h <;> simp

/-- Settles O21. -/
theorem configurationNeverChanges : Obligations.ConfigurationNeverChanges := step_cfg

end Sys2Proof.Machine
end

section
/-! PROOFS. The invariant `Inv`: that the built tables meet R84, that every trace ends with the panel deselected and out
of reset, and that reset and every step give `Inv`. -/

namespace Sys2Proof.Config

/-! ### The tables that the open parts make are admitted by R84 -/

@[simp] theorem entryHasOrient_plainEntry (e : Byte × List Byte) : entryHasOrient (plainEntry e) = false := by
  simp [entryHasOrient, plainEntry]

@[simp] theorem filter_entryHasOrient_map_plainEntry (es : List (Byte × List Byte)) :
    (es.map plainEntry).filter entryHasOrient = [] := by
  rw [List.filter_eq_nil_iff, List.forall_mem_map]
  simp

@[simp] theorem entryHasOrient_madctlEntry (cfg : Config) : entryHasOrient cfg.madctlEntry = true := rfl
@[simp] theorem entryHasOrient_colmodEntry (cfg : Config) : entryHasOrient cfg.colmodEntry = false := rfl

@[simp] theorem filter_entryHasOrient_tailEntries (cfg : Config) : cfg.tailEntries.filter entryHasOrient = [] := rfl

/-- A built table without its last two entries. -/
def builtHead (cfg : Config) (p : InitParts) : List InitEntry :=
  p.before.map plainEntry
    ++ (if p.colmodFirst then cfg.colmodEntry else cfg.madctlEntry) :: p.between.map plainEntry
    ++ (if p.colmodFirst then cfg.madctlEntry else cfg.colmodEntry) :: p.after.map plainEntry

theorem buildTable_eq (cfg : Config) (p : InitParts) : cfg.buildTable p = cfg.builtHead p ++ cfg.tailEntries := by
  simp [buildTable, builtHead]

theorem length_builtHead_append (cfg : Config) (p : InitParts) :
    (cfg.builtHead p ++ cfg.tailEntries).length - 2 = (cfg.builtHead p).length := by
  simp [tailEntries]

@[simp] theorem plainEntry_waitMs (e : Byte × List Byte) : (plainEntry e).waitMs = 0 := rfl
@[simp] theorem madctlEntry_waitMs (cfg : Config) : cfg.madctlEntry.waitMs = 0 := rfl
@[simp] theorem colmodEntry_waitMs (cfg : Config) : cfg.colmodEntry.waitMs = 0 := rfl

theorem filter_entryHasOrient_builtHead (cfg : Config) (p : InitParts) :
    (cfg.builtHead p).filter entryHasOrient = [cfg.madctlEntry] := by
  cases h : p.colmodFirst <;> simp [builtHead, h, List.filter_cons]

theorem colmodEntry_mem_builtHead (cfg : Config) (p : InitParts) : cfg.colmodEntry ∈ cfg.builtHead p := by
  cases h : p.colmodFirst <;> simp [builtHead, h]

theorem builtHead_noWaits (cfg : Config) (p : InitParts) : (cfg.builtHead p).all (fun e => e.waitMs == 0) = true := by
  cases h : p.colmodFirst <;> simp [builtHead, h]

/-- R84 admits every table of the built form. -/
theorem wf_of_buildTable (cfg : Config) (p : InitParts) (ht : cfg.initTable = cfg.buildTable p)
    (hticks : 0 < cfg.ticksPerMs) : cfg.wf = true := by
  have horient : cfg.orientOk = true := by
    simp [orientOk, ht, buildTable_eq, filter_entryHasOrient_builtHead]
  have hcolmod : cfg.colmodOk = true := by
    simp [colmodOk, ht, buildTable_eq, colmodEntry_mem_builtHead]
  have htail : cfg.tailOk = true := by
    simp only [tailOk, ht, buildTable_eq, length_builtHead_append, List.drop_left, decide_true]
  have hwaits : cfg.waitsOk = true := by
    simp only [waitsOk, tableHead, ht, buildTable_eq, length_builtHead_append, List.take_left, builtHead_noWaits]
  simp [wf, horient, hcolmod, htail, hwaits, hticks]

theorem reset_wf : Config.reset.wf = true := wf_of_buildTable Config.reset openInit rfl (Nat.succ_pos _)

end Sys2Proof.Config

namespace Sys2Proof.Machine

/-! ### Every trace ends with the panel deselected and out of reset (R47, R79) -/

/-- Deselected and out of reset. -/
def Pins.atRest (p : Pins) : Prop := p.csN = true ∧ p.rstN = true

/-- Performed from rest, the trace ends at rest. -/
def endsAtRest (t : List Event) : Prop := ∀ p : Pins, p.atRest → (p.afterAll t).atRest

theorem endsAtRest_nil : endsAtRest [] := fun _ h => h

theorem endsAtRest_wait (ms : Nat) : endsAtRest [.wait ms] := fun _ h => h

theorem endsAtRest.append {a b : List Event} (ha : endsAtRest a) (hb : endsAtRest b) : endsAtRest (a ++ b) := by
  intro p hp
  rw [Pins.afterAll_append]
  exact hb _ (ha p hp)

theorem endsAtRest_flatMap {α : Type} (f : α → List Event) (l : List α) (hf : ∀ a, endsAtRest (f a)) :
    endsAtRest (l.flatMap f) := by
  induction l with
  | nil => exact endsAtRest_nil
  | cons a l ih => exact (hf a).append ih

theorem endsAtRest_repeatTrace (n : Nat) {t : List Event} (ht : endsAtRest t) : endsAtRest (repeatTrace n t) := by
  induction n with
  | zero => exact endsAtRest_nil
  | succ n ih => exact ht.append ih

/-- A transmission deselects the panel at its end and never writes RST_N (R71). -/
theorem endsAtRest_send (w : Nat) (v : BitVec w) (d : Bool) (hw : w ≠ 0) : endsAtRest (send w v d) := by
  rintro p ⟨-, hrst⟩
  rw [afterAll_send w v d p hw]
  exact ⟨rfl, hrst⟩

theorem endsAtRest_sendCmd (v : Byte) : endsAtRest (sendCmd v) := endsAtRest_send 8 v false (by decide)
theorem endsAtRest_sendByte (v : Byte) : endsAtRest (sendByte v) := endsAtRest_send 8 v true (by decide)
theorem endsAtRest_sendHalf (v : Half) : endsAtRest (sendHalf v) := endsAtRest_send 16 v true (by decide)

/-- The reset pulse ends with RST_N = 1 and leaves CS_N alone (R79). -/
theorem endsAtRest_resetPulse : endsAtRest resetPulse := fun _ hp => ⟨hp.1, rfl⟩

theorem endsAtRest_entryTrace (cfg : Config) (orient : BitVec 2) (e : InitEntry) :
    endsAtRest (entryTrace cfg orient e) := by
  have hwait : endsAtRest (if 0 < e.waitMs then [.wait e.waitMs] else []) := by
    split
    · exact endsAtRest_wait _
    · exact endsAtRest_nil
  have hparams := endsAtRest_flatMap (fun p => sendByte (substParam cfg orient p)) e.params
    fun _ => endsAtRest_sendByte _
  exact ((endsAtRest_sendCmd _).append hparams).append hwait

theorem endsAtRest_traceInit (cfg : Config) (orient : BitVec 2) : endsAtRest (traceInit cfg orient) :=
  endsAtRest_resetPulse.append (endsAtRest_flatMap _ _ (endsAtRest_entryTrace cfg orient))

theorem endsAtRest_window (cfg : Config) (xs ys xe ye : Int) : endsAtRest (window cfg xs ys xe ye) := by
  have bounds (c : Byte) (lo hi : Half) : endsAtRest (sendCmd c ++ sendHalf lo ++ sendHalf hi) :=
    ((endsAtRest_sendCmd c).append (endsAtRest_sendHalf lo)).append (endsAtRest_sendHalf hi)
  have h := ((bounds cfg.cmdCaset (low16 xs) (low16 xe)).append (bounds cfg.cmdRaset (low16 ys) (low16 ye))).append
    (endsAtRest_sendCmd cfg.cmdRamwr)
  simpa [window] using h

theorem endsAtRest_pointTrace (cfg : Config) (c : Half) (p : Int × Int) : endsAtRest (pointTrace cfg c p) :=
  (endsAtRest_window _ _ _ _ _).append (endsAtRest_sendHalf c)

theorem endsAtRest_pointsTrace (cfg : Config) (pts : List (Int × Int)) (c : Half) :
    endsAtRest (pointsTrace cfg pts c) :=
  endsAtRest_flatMap _ _ (endsAtRest_pointTrace cfg c)

theorem endsAtRest_traceClear (cfg : Config) (c : Half) : endsAtRest (traceClear cfg c) := by
  unfold traceClear
  exact (endsAtRest_window _ _ _ _ _).append (endsAtRest_repeatTrace _ (endsAtRest_sendHalf c))

/-- From a deselected panel out of reset, the trace of every command ends so. -/
theorem endsAtRest_traceOf (cfg : Config) (i : Instr) : endsAtRest (traceOf cfg i) := by
  cases i with
  | nop => exact endsAtRest_nil
  | sendCmd8 v => exact endsAtRest_sendCmd v
  | sendData8 v => exact endsAtRest_sendByte v
  | sendData16 v => exact endsAtRest_sendHalf v
  | panelReset => exact endsAtRest_resetPulse
  | delay ms => exact endsAtRest_wait _
  | init orient => exact endsAtRest_traceInit cfg orient
  | setWindow xs ys xe ye => exact endsAtRest_window _ _ _ _ _
  | drawPoint x y c => exact endsAtRest_pointTrace _ _ _
  | drawLine x1 y1 x2 y2 c => exact endsAtRest_pointsTrace _ _ _
  | drawRect x1 y1 x2 y2 c => exact endsAtRest_pointsTrace _ _ _
  | drawCircle x0 y0 r c => exact endsAtRest_pointsTrace _ _ _
  | clear c => exact endsAtRest_traceClear cfg c

/-! ### The invariant, kept part by part -/

theorem pendingExplained_of_nil (s : State) (hp : s.pending = []) : pendingExplained s := fun h => absurd hp h

/-- With one pending event performed, what is left is still a suffix of the trace of `cur`. -/
theorem pendingExplained_performNext (s : State) (e : Event) (rest : List Event) (hp : s.pending = e :: rest)
    (h : pendingExplained s) : pendingExplained (s.performNext e rest).portHold := by
  intro _
  obtain ⟨i, done, hd, ht⟩ := h (by simp [hp])
  exact ⟨i, done ++ [e], by simpa using hd, by simpa [hp] using ht⟩

/-- An idle block whose pins end deselected has them so now. -/
theorem atRest_of_idle (s : State) (hp : s.pending = []) (h : endsDeselected s) : s.pins.atRest := by
  simpa [endsDeselected, Pins.atRest, hp] using h

/-- A step with `pending` empty that leaves pins, panel and configuration alone keeps the invariant if it leaves a trace
pending that `cur` explains and that ends at rest. -/
theorem Inv.of_idle {s t : State} (h : Inv s) (hp : s.pending = []) (hcfg : t.cfg = s.cfg) (hpins : t.pins = s.pins)
    (hpanel : t.panel = s.panel) (hexp : pendingExplained t) (hrest : endsAtRest t.pending) : Inv t where
  cfgOk := by rw [hcfg]; exact h.cfgOk
  explained := hexp
  deselected := hrest t.pins (by rw [hpins]; exact atRest_of_idle s hp h.deselected)
  memCanonical := by rw [hpanel]; exact h.memCanonical
  memRange := by rw [hpanel]; exact h.memRange
  modeUnknown := by rw [hpanel]; exact h.modeUnknown

/-- `Inv` in the panel laws' own terms, `memOk` and `modeOk`. -/
theorem Inv.of_parts {s : State} (hcfg : s.cfg.wf = true) (hexp : pendingExplained s) (hdes : endsDeselected s)
    (hmem : memOk s.panel.mem) (hmode : modeOk s.panel) : Inv s :=
  ⟨hcfg, hexp, hdes, hmem.1, hmem.2, hmode⟩

theorem Inv.panel_memOk {s : State} (h : Inv s) : memOk s.panel.mem := ⟨h.memCanonical, h.memRange⟩

theorem Inv.panel_modeOk {s : State} (h : Inv s) : modeOk s.panel := h.modeUnknown

theorem Inv.blockReset {s : State} (h : Inv s) : Inv s.blockReset.portHold :=
  .of_parts h.cfgOk (pendingExplained_of_nil _ rfl) ⟨rfl, rfl⟩ (Panel.blockReset_memOk _ _ _ h.panel_memOk)
    (Panel.blockReset_modeOk _ _ _)

theorem Inv.performNext {s : State} (h : Inv s) (e : Event) (rest : List Event) (hp : s.pending = e :: rest) :
    Inv (s.performNext e rest).portHold :=
  .of_parts (by simpa using h.cfgOk) (pendingExplained_performNext s e rest hp h.explained)
    (by simpa [endsDeselected, hp] using h.deselected) (performNext_memOk e rest s h.panel_memOk)
    (performNext_modeOk e rest s h.panel_modeOk)

/-! ### The statements -/

/-- Settles O22: R84 admits the table of the open parts, and the rest of the reset state is concrete. -/
theorem invariantHoldsAfterReset : Obligations.InvariantHoldsAfterReset :=
  .of_parts Config.reset_wf (pendingExplained_of_nil _ rfl) ⟨rfl, rfl⟩ reset_memOk fun _ => rfl

/-- Settles O23: each of the five things a step can do keeps the invariant; an accepted command starts a trace that
ends at rest. -/
theorem everyStepKeepsTheInvariant : Obligations.EveryStepKeepsTheInvariant := by
  unfold Obligations.EveryStepKeepsTheInvariant
  intro s t h hstep
  obtain ⟨-, rfl⟩ | ⟨-, e, rest, hp, rfl⟩ | ⟨-, hp, -, rfl⟩ | ⟨-, hp, w, i, -, hd, rfl⟩ |
    ⟨-, hp, w, why, -, -, rfl⟩ := step_cases s t hstep
  · exact h.blockReset
  · exact h.performNext e rest hp
  · have hp' : s.portHold.pending = [] := hp
    exact h.of_idle hp rfl rfl rfl (pendingExplained_of_nil _ hp') (hp' ▸ endsAtRest_nil)
  · exact h.of_idle hp rfl rfl rfl (fun _ => ⟨i, [], hd, rfl⟩) (endsAtRest_traceOf s.cfg i)
  · exact h.of_idle hp rfl rfl rfl (pendingExplained_of_nil _ rfl) endsAtRest_nil

end Sys2Proof.Machine
end

section
/-! PROOFS. Runs of a host program (R30): what a number of steps performs, and what the block is after it. -/

namespace Sys2Proof.Machine

/-! ### Runs with the trace they perform -/

/-- `k` steps from `s` perform the trace `tr` and reach `t`. -/
structure Runs (k : Nat) (s : State) (tr : List Event) (t : State) : Prop where
  steps : runSteps k s = .next t
  trace : performed k s = tr

theorem Runs.zero (s : State) : Runs 0 s [] s := ⟨rfl, rfl⟩

/-- One step, then a run. -/
theorem Runs.cons {k : Nat} {s t u : State} {tr : List Event} (hstep : step s = .next t) (h : Runs k t tr u) :
    Runs (k + 1) s (s.nextEvent.toList ++ tr) u :=
  ⟨by rw [runSteps_succ k s t hstep, h.steps], by simp [performed, hstep, h.trace]⟩

/-- What a run of `j + k` steps performs, when it gets through its first `j` (compare `runSteps_add`). -/
theorem performed_add (j k : Nat) (s t : State) (h : runSteps j s = .next t) :
    performed (j + k) s = performed j s ++ performed k t := by
  induction j generalizing s with
  | zero =>
    injection h with h
    simp [performed, h]
  | succ j ih =>
    rw [show j + 1 + k = (j + k) + 1 by omega]
    cases hstep : step s with
    | next u =>
      rw [runSteps_succ _ _ _ hstep] at h
      simp [performed, hstep, ih u h]
    | fault r => simp [runSteps, hstep] at h
    | refused r => simp [runSteps, hstep] at h

/-- One run after another. -/
theorem Runs.trans {j k : Nat} {s t u : State} {tr tr' : List Event} (h : Runs j s tr t) (h' : Runs k t tr' u) :
    Runs (j + k) s (tr ++ tr') u :=
  ⟨by rw [runSteps_add j k s t h.steps, h'.steps], by rw [performed_add j k s t h.steps, h.trace, h'.trace]⟩

theorem Runs.observe {k : Nat} {s t : State} {tr : List Event} (h : Runs k s tr t) :
    observeRun k s = some { trace := tr, pins := t.pins, status := t.status } := by
  simp [observeRun, h.steps, h.trace]

/-! ### The block after a trace -/

/-- The block `t` after `s` has had `tr` performed to its end: idle, the levels of the trace, ILLEGAL raised if `bad`,
and the words `ws` still at the port. -/
structure BlockAfter (s : State) (tr : List Event) (bad : Bool) (ws : List CmdWord) (t : State) : Prop where
  pending : t.pending = []
  cfg     : t.cfg = s.cfg
  pins    : t.pins = s.pins.afterAll tr
  illegal : t.illegal = (s.illegal || bad)
  host    : t.host = hostProgram ws

theorem BlockAfter.trans {s t u : State} {tr tr' : List Event} {bad bad' : Bool} {ws ws' : List CmdWord}
    (h : BlockAfter s tr bad ws t) (h' : BlockAfter t tr' bad' ws' u) :
    BlockAfter s (tr ++ tr') (bad || bad') ws' u where
  pending := h'.pending
  cfg := h'.cfg.trans h.cfg
  pins := by rw [h'.pins, h.pins, Pins.afterAll_append]
  illegal := by rw [h'.illegal, h.illegal, Bool.or_assoc]
  host := h'.host

/-- With a host program at the port, all that is pending is performed, one event a step (R26): `run_pending` with the
trace the run performs. -/
theorem runs_pending (ws : List CmdWord) (tr : List Event) (s : State) (hh : s.host = hostProgram ws)
    (hp : s.pending = tr) : ∃ t, Runs tr.length s tr t ∧ BlockAfter s tr false ws t := by
  induction tr generalizing s with
  | nil => exact ⟨s, .zero s, hp, rfl, rfl, by simp, hh⟩
  | cons e rest ih =>
    have hr := hostProgram_rstBlk ws s hh
    have hhold : (s.performNext e rest).portHold = s.performNext e rest := hostProgram_portHold ws _ (by simpa using hh)
    have hstep := step_of_pending s e rest hr hp
    rw [hhold] at hstep
    obtain ⟨t, hrun, ht⟩ := ih (s.performNext e rest) (by simpa using hh) (by simp)
    refine ⟨t, ?_, ht.pending, by simpa using ht.cfg, by simpa using ht.pins, by simpa using ht.illegal, ht.host⟩
    simpa [State.nextEvent, hr, hp] using Runs.cons hstep hrun

/-- The edge that accepts a word of a host program: the word's trace becomes pending, and ILLEGAL is raised if the word
has no meaning. -/
theorem step_hostProgram (w : CmdWord) (ws : List CmdWord) (s : State) (hp : s.pending = [])
    (hh : s.host = hostProgram (w :: ws)) :
    ∃ t, step s = .next t ∧ t.pending = wordTrace s.cfg w ∧ t.cfg = s.cfg ∧ t.pins = s.pins ∧
      t.illegal = (s.illegal || wordIllegal w) ∧ t.host = hostProgram ws := by
  have hr := hostProgram_rstBlk _ s hh
  have ho : s.offered = some w := s.offered_cons _ _ hh
  have htail : s.host.tail = hostProgram ws := by rw [hh]; rfl
  cases hd : decode w with
  | legal i =>
    exact ⟨_, step_of_legal s w i hr hp ho hd, by simp [wordTrace, hd], rfl, rfl, by simp [wordIllegal_of_legal hd],
      htail⟩
  | illegal why =>
    exact ⟨_, step_of_illegal s w why hr hp ho hd, by simp [wordTrace, hd], rfl, rfl,
      by simp [wordIllegal_of_illegal hd], htail⟩

/-- One word of a host program, from its acceptance to its last event. -/
theorem runs_word (w : CmdWord) (ws : List CmdWord) (s : State) (hp : s.pending = [])
    (hh : s.host = hostProgram (w :: ws)) :
    ∃ t, Runs ((wordTrace s.cfg w).length + 1) s (wordTrace s.cfg w) t ∧
      BlockAfter s (wordTrace s.cfg w) (wordIllegal w) ws t := by
  obtain ⟨u, hstep, hup, hucfg, hupins, huill, huhost⟩ := step_hostProgram w ws s hp hh
  obtain ⟨t, hrun, ht⟩ := runs_pending ws _ u huhost hup
  refine ⟨t, ?_, ht.pending, ht.cfg.trans hucfg, by rw [ht.pins, hupins], by simpa [huill] using ht.illegal, ht.host⟩
  simpa [State.nextEvent, hp] using Runs.cons hstep hrun

/-- A whole host program, word after word (R30). -/
theorem runs_hostProgram (ws : List CmdWord) (s : State) (hp : s.pending = []) (hh : s.host = hostProgram ws) :
    ∃ t, Runs (programSteps s.cfg ws) s (ws.flatMap (wordTrace s.cfg)) t ∧
      BlockAfter s (ws.flatMap (wordTrace s.cfg)) (ws.any wordIllegal) [] t := by
  induction ws generalizing s with
  | nil => exact ⟨s, .zero s, hp, rfl, rfl, by simp, hh⟩
  | cons w ws ih =>
    obtain ⟨u, hrun, hu⟩ := runs_word w ws s hp hh
    obtain ⟨t, hrun', ht⟩ := ih u hu.pending hu.host
    rw [hu.cfg] at hrun' ht
    exact ⟨t, hrun.trans hrun', hu.trans ht⟩

/-- Settles O24: the run of the program, observed. -/
theorem hostProgramIsObservedAsItsTraces : Obligations.HostProgramIsObservedAsItsTraces := by
  unfold Obligations.HostProgramIsObservedAsItsTraces
  intro s ws hp hh
  obtain ⟨t, hrun, ht⟩ := runs_hostProgram ws s hp hh
  have hbusy : t.busy = false := by simp [State.busy, ht.pending]
  refine ⟨⟨t, hrun.steps, hbusy, ht.host⟩, ?_⟩
  rw [hrun.observe, ht.pins, State.status, ht.illegal, hbusy]
  rfl

end Sys2Proof.Machine
end

section
/-! PROOFS. Coordinates on the wire (R45), traces as whole transmissions (R47, R77), and the bytes the panel reads from
a transmission (R34, R37). -/

namespace Sys2Proof.Machine

/-! ### The wire form of a coordinate (R6, R45, R58) -/

theorem low16_toNat (v : Int) : ((low16 v).toNat : Int) = v % 65536 := by
  rw [low16, BitVec.toNat_ofInt]
  omega

@[simp] theorem low16_sext16 (f : Half) : low16 (sext16 f) = f := BitVec.ofInt_toInt

@[simp] theorem low16_zext16 (f : Half) : low16 (zext16 f) = f := by
  simp [low16, zext16]

/-- Settles O7. -/
theorem coordinatesGoOutModTwoToTheSixteen : Obligations.CoordinatesGoOutModTwoToTheSixteen := by
  unfold Obligations.CoordinatesGoOutModTwoToTheSixteen
  exact ⟨low16_toNat, fun f =>
    ⟨low16_sext16 f, low16_zext16 f, BitVec.le_toInt f, Int.le_of_lt_add_one BitVec.toInt_lt⟩⟩

/-! ### Traces made of whole pieces (R47, R77) -/

/-- The trace is whole transmissions, writes of RST_N and waits, one after another. -/
def isSegmented (t : List Event) : Prop := ∃ segs : List Segment, t = segs.flatMap Segment.events

theorem isSegmented_nil : isSegmented [] := ⟨[], rfl⟩

theorem isSegmented_events (g : Segment) : isSegmented g.events := ⟨[g], by simp⟩

theorem isSegmented.append {a b : List Event} : isSegmented a → isSegmented b → isSegmented (a ++ b) := by
  rintro ⟨as, rfl⟩ ⟨bs, rfl⟩
  exact ⟨as ++ bs, List.flatMap_append.symm⟩

theorem isSegmented_flatMap {α : Type} (f : α → List Event) (l : List α) (hf : ∀ a, isSegmented (f a)) :
    isSegmented (l.flatMap f) := by
  induction l with
  | nil => exact isSegmented_nil
  | cons a l ih => exact (hf a).append ih

theorem isSegmented_repeatTrace (n : Nat) {t : List Event} (ht : isSegmented t) : isSegmented (repeatTrace n t) := by
  induction n with
  | zero => exact isSegmented_nil
  | succ n ih => exact ht.append ih

theorem isSegmented_sendCmd (v : Byte) : isSegmented (sendCmd v) := isSegmented_events (.tx8 v false)
theorem isSegmented_sendByte (v : Byte) : isSegmented (sendByte v) := isSegmented_events (.tx8 v true)
theorem isSegmented_sendHalf (v : Half) : isSegmented (sendHalf v) := isSegmented_events (.tx16 v)
theorem isSegmented_wait (ms : Nat) : isSegmented [.wait ms] := isSegmented_events (.wait ms)

theorem isSegmented_resetPulse : isSegmented resetPulse :=
  ⟨[.reset false, .wait Config.tRstLowMs, .reset true, .wait Config.tRstRecoverMs], rfl⟩

theorem isSegmented_entryTrace (cfg : Config) (orient : BitVec 2) (e : InitEntry) :
    isSegmented (entryTrace cfg orient e) := by
  have hwait : isSegmented (if 0 < e.waitMs then [.wait e.waitMs] else []) := by
    split
    · exact isSegmented_wait _
    · exact isSegmented_nil
  exact ((isSegmented_sendCmd _).append (isSegmented_flatMap _ e.params fun _ => isSegmented_sendByte _)).append hwait

theorem isSegmented_window (cfg : Config) (xs ys xe ye : Int) : isSegmented (window cfg xs ys xe ye) :=
  ⟨[.tx8 cfg.cmdCaset false, .tx16 (low16 xs), .tx16 (low16 xe), .tx8 cfg.cmdRaset false, .tx16 (low16 ys),
    .tx16 (low16 ye), .tx8 cfg.cmdRamwr false],
    by simp [window, Segment.events, sendCmd, sendHalf]⟩

theorem isSegmented_pointsTrace (cfg : Config) (pts : List (Int × Int)) (c : Half) :
    isSegmented (pointsTrace cfg pts c) :=
  isSegmented_flatMap _ _ fun _ => (isSegmented_window _ _ _ _ _).append (isSegmented_sendHalf c)

theorem isSegmented_traceOf (cfg : Config) (i : Instr) : isSegmented (traceOf cfg i) := by
  cases i with
  | nop => exact isSegmented_nil
  | sendCmd8 v => exact isSegmented_sendCmd v
  | sendData8 v => exact isSegmented_sendByte v
  | sendData16 v => exact isSegmented_sendHalf v
  | panelReset => exact isSegmented_resetPulse
  | delay ms => exact isSegmented_wait _
  | init orient => exact isSegmented_resetPulse.append (isSegmented_flatMap _ _ (isSegmented_entryTrace cfg orient))
  | setWindow xs ys xe ye => exact isSegmented_window _ _ _ _ _
  | drawPoint x y c => exact (isSegmented_window _ _ _ _ _).append (isSegmented_sendHalf c)
  | drawLine x1 y1 x2 y2 c => exact isSegmented_pointsTrace _ _ _
  | drawRect x1 y1 x2 y2 c => exact isSegmented_pointsTrace _ _ _
  | drawCircle x0 y0 r c => exact isSegmented_pointsTrace _ _ _
  | clear c =>
    unfold traceOf traceClear
    exact (isSegmented_window _ _ _ _ _).append (isSegmented_repeatTrace _ (isSegmented_sendHalf c))

/-- Settles O26. -/
theorem tracesAreWholeTransmissions : Obligations.TracesAreWholeTransmissions := isSegmented_traceOf

/-! ### The bytes of a transmission (R33, R34, R37) -/

/-- The byte of the stream that eight bits with one DC level make. -/
def sentByte (d : Bool) (v : Byte) : WireByte := if d then .data v else .cmd v

theorem wireByte_bits (d : Bool) (v : Byte) :
    wireByte d (v.getLsbD 7) (v.getLsbD 6) (v.getLsbD 5) (v.getLsbD 4) (v.getLsbD 3) (v.getLsbD 2) (v.getLsbD 1)
      (v.getLsbD 0) = sentByte d v := by
  revert d v
  decide

/-- A frame that begins with the bits of a byte begins with that byte. -/
theorem bytesOfFrame_byte_append (v : Byte) (d : Bool) (rest : List Sample) :
    bytesOfFrame (sentSamples 8 v d 8 ++ rest) = (bytesOfFrame rest).map (sentByte d v :: ·) := by
  rw [← wireByte_bits]
  simp [sentSamples, bytesOfFrame]

theorem bytesOfFrame_byte (v : Byte) (d : Bool) : bytesOfFrame (sentSamples 8 v d 8) = some [sentByte d v] := by
  simpa [bytesOfFrame] using bytesOfFrame_byte_append v d []

/-- A 16-bit word puts on the wire the bits of its high byte, then those of its low byte (R34). -/
theorem sentSamples_half (v : Half) (d : Bool) :
    sentSamples 16 v d 16 = sentSamples 8 (v.extractLsb' 8 8) d 8 ++ sentSamples 8 (v.extractLsb' 0 8) d 8 := by
  simp [sentSamples]

theorem bytesOfFrame_half (v : Half) : bytesOfFrame (sentSamples 16 v true 16) = some (halfBytes v) := by
  rw [sentSamples_half, bytesOfFrame_byte_append, bytesOfFrame_byte]
  rfl

@[simp] theorem byteStream_nil (p : Pins) : byteStream p [] = [] := rfl

/-- The bytes of a transmission come before those of what follows it, which begins with the panel deselected again. -/
theorem byteStream_send_append (w : Nat) (v : BitVec w) (d : Bool) (p : Pins) (rest : List Event) (hcs : p.csN = true) :
    byteStream p (send w v d ++ rest)
      = (bytesOfFrame (sentSamples w v d w)).getD [] ++ byteStream (p.afterAll (send w v d)) rest := by
  simp [byteStream, wireFrames, framesFrom_send w v d p [] rest hcs]

theorem byteStream_sendByte_append (v : Byte) (p : Pins) (rest : List Event) (hcs : p.csN = true) :
    byteStream p (sendByte v ++ rest) = .data v :: byteStream (p.afterAll (sendByte v)) rest := by
  rw [sendByte, byteStream_send_append _ _ _ _ _ hcs, bytesOfFrame_byte]
  rfl

theorem byteStream_sendHalf_append (v : Half) (p : Pins) (rest : List Event) (hcs : p.csN = true) :
    byteStream p (sendHalf v ++ rest) = halfBytes v ++ byteStream (p.afterAll (sendHalf v)) rest := by
  rw [sendHalf, byteStream_send_append _ _ _ _ _ hcs, bytesOfFrame_half]
  rfl

/-- Settles O31: both sides are `halfBytes v`. -/
theorem halfWordIsItsTwoBytes : Obligations.HalfWordIsItsTwoBytes := by
  unfold Obligations.HalfWordIsItsTwoBytes
  intro p v hcs
  have hword := byteStream_sendHalf_append v p [] hcs
  have hcs' : (p.afterAll (sendByte (v.extractLsb' 8 8))).csN = true := by
    rw [sendByte, afterAll_send _ _ _ _ (by decide)]
  have hlow := byteStream_sendByte_append (v.extractLsb' 0 8) _ [] hcs'
  rw [List.append_nil] at hword hlow
  rw [hword, byteStream_sendByte_append _ p _ hcs, hlow]
  rfl

end Sys2Proof.Machine
end

section
/-! PROOFS. What an addressable panel makes of a transmission and of a window set (R36 to R43). -/

namespace Sys2Proof.Machine

/-! ### One transmission (R36) -/

/-- Of a write to any pin but RST_N the panel sees only what its sampler makes of it. -/
theorem Panel.observe_set (cfg : Config) (n : Nat) (pins : Pins) (k : Pin) (l : Bool) (p : Panel) (h : k ≠ .rstN) :
    p.observe cfg n pins (pins.set k l) = p.sampled cfg n (wireEvent pins (pins.set k l)) := by
  have hrst : (pins.set k l).rstN = pins.rstN := by
    cases k with
    | rstN => exact absurd rfl h
    | _ => rfl
  simp [Panel.observe, Panel.resetLine, hrst]

@[simp] theorem Panel.observe_set_sda (cfg : Config) (n : Nat) (pins : Pins) (l : Bool) (p : Panel) :
    p.observe cfg n pins (pins.set .sda l) = p := by
  cases hcs : pins.csN <;> cases hclk : pins.sclk <;> simp [Panel.observe_set, wireEvent, Panel.sampled, hcs, hclk]

@[simp] theorem Panel.observe_set_dc (cfg : Config) (n : Nat) (pins : Pins) (l : Bool) (p : Panel) :
    p.observe cfg n pins (pins.set .dc l) = p := by
  cases hcs : pins.csN <;> cases hclk : pins.sclk <;> simp [Panel.observe_set, wireEvent, Panel.sampled, hcs, hclk]

@[simp] theorem Panel.observe_set_sclk_inactive (cfg : Config) (n : Nat) (pins : Pins) (p : Panel) :
    p.observe cfg n pins (pins.set .sclk false) = p := by
  cases hcs : pins.csN <;> simp [Panel.observe_set, wireEvent, Panel.sampled, hcs]

theorem Panel.observe_set_sclk_active (cfg : Config) (n : Nat) (pins : Pins) (p : Panel) (hcs : pins.csN = false)
    (hclk : pins.sclk = false) :
    p.observe cfg n pins (pins.set .sclk true)
      = { p with frame := p.frame ++ [{ dc := pins.dc, sda := pins.sda }] } := by
  simp [Panel.observe_set, wireEvent, Panel.sampled, hcs, hclk]

theorem Panel.observe_select (cfg : Config) (n : Nat) (pins : Pins) (p : Panel) (hcs : pins.csN = true) :
    p.observe cfg n pins (pins.set .csN false) = p.frameStart n := by
  simp [Panel.observe_set, wireEvent, Panel.sampled, hcs]

theorem Panel.observe_deselect (cfg : Config) (n : Nat) (pins : Pins) (p : Panel) (hcs : pins.csN = false) :
    p.observe cfg n pins (pins.set .csN true) = p.frameStop cfg n := by
  simp [Panel.observe_set, wireEvent, Panel.sampled, hcs]

/-- The panel with no bit sampled, as it is between two frames. -/
def Panel.unframed (p : Panel) : Panel := { p with frame := [] }

@[simp] theorem Panel.unframed_mode (p : Panel) : p.unframed.mode = p.mode := rfl
@[simp] theorem Panel.unframed_addressable (p : Panel) : p.unframed.addressable = p.addressable := rfl

/-- The bit loop adds its samples to the frame of the selected panel, and does nothing else to it. -/
theorem performAll_sendBits_panel (w : Nat) (v : BitVec w) (n : Nat) (s : State) (hcs : s.pins.csN = false) :
    (s.performAll (sendBits w v n)).panel
      = { s.panel with frame := s.panel.frame ++ sentSamples w v s.pins.dc n } := by
  induction n generalizing s with
  | zero => simp [sendBits, sentSamples]
  | succ n ih =>
    have hbit := Panel.observe_set_sclk_active s.cfg (s.free + 1 + 1)
      ((s.pins.set .sclk false).set .sda (v.getLsbD n)) s.panel hcs rfl
    simp [sendBits, ih, hcs, hbit, sentSamples]

/-- A transmission to a deselected panel that is owed no wait: its frame is received when CS_N rises. -/
theorem performAll_send_panel (w : Nat) (v : BitVec w) (d : Bool) (s : State) (hcs : s.pins.csN = true)
    (howed : s.panel.owed = 0) :
    (s.performAll (send w v d)).panel
      = ({ s.panel with frame := sentSamples w v d w } : Panel).frameStop s.cfg (s.free + (3 * w + 2)) := by
  have hsel : (((s.pins.set .csN false).set .dc d).afterAll (sendBits w v w)).csN = false := by
    rw [afterAll_sendBits]; split <;> rfl
  simp [send, performAll_append, Panel.observe_deselect, hsel, performAll_sendBits_panel, Panel.observe_select, hcs,
    Panel.frameStart, howed]
  congr 1
  omega

/-! ### Bytes for an addressable panel (R37, R39 to R42) -/

namespace Panel

theorem owed_of_addressable {p : Panel} (h : p.addressable = true) : p.owed = 0 := by
  simp only [addressable, Bool.and_eq_true, beq_iff_eq] at h
  exact h.2

@[simp] theorem interrupt_addressable (n : Nat) (p : Panel) : (p.interrupt n).addressable = p.addressable := by
  unfold interrupt; split <;> rfl

@[simp] theorem memoryWrite_addressable (p : Panel) : p.memoryWrite.addressable = p.addressable := by
  unfold memoryWrite; simp only; split <;> rfl

@[simp] theorem windowCommand_addressable (cfg : Config) (c : Byte) (p : Panel) :
    (p.windowCommand cfg c).addressable = p.addressable := by
  unfold windowCommand
  split
  · rfl
  · split
    · rfl
    · split
      · exact memoryWrite_addressable p
      · rfl

@[simp] theorem advancePointer_addressable (p : Panel) : p.advancePointer.addressable = p.addressable := by
  unfold advancePointer; split <;> rfl

@[simp] theorem pixel_addressable (w : Half) (p : Panel) : (p.pixel w).addressable = p.addressable := by
  unfold pixel
  split
  · exact advancePointer_addressable _
  · rfl

@[simp] theorem dataByte_addressable (n : Nat) (b : Byte) (p : Panel) :
    (p.dataByte n b).addressable = p.addressable := by
  unfold dataByte
  split
  · rfl
  · rfl
  · rfl
  · rfl
  · rfl
  · exact pixel_addressable _ _
  · rfl
  · rfl
  · rfl

/-- A command that is no sleep-out and no display-on does nothing to the bring-up. -/
theorem bringUp_other (cfg : Config) (n : Nat) (c : Byte) (p : Panel) (hs : c ≠ cfg.cmdSlpout)
    (hd : c ≠ cfg.cmdDispon) :
    p.bringUp cfg n c = p := by
  simp [bringUp, hs, hd]

theorem interrupt_unframed (n : Nat) (p : Panel) : p.unframed.interrupt n = (p.interrupt n).unframed := by
  obtain ⟨xs, ys, xe, ye, px, py, mode, mem, memUnknown, frame, stage, owed⟩ := p
  cases mode <;> rfl

theorem interrupt_idle (n : Nat) (p : Panel) (h : p.mode = .idle) : p.interrupt n = p := by
  simp [interrupt, h]

theorem commandByte_caset (cfg : Config) (n : Nat) (p : Panel) :
    p.commandByte cfg n cfg.cmdCaset = { p.interrupt n with mode := .col [] } := by
  simp [commandByte, windowCommand]

theorem commandByte_raset (cfg : Config) (n : Nat) (p : Panel) (h : commandsApart cfg) :
    p.commandByte cfg n cfg.cmdRaset = { p.interrupt n with mode := .row [] } := by
  simp [commandByte, windowCommand, h.1.symm]

theorem commandByte_ramwr (cfg : Config) (n : Nat) (p : Panel) (h : commandsApart cfg) :
    p.commandByte cfg n cfg.cmdRamwr = (p.interrupt n).memoryWrite := by
  obtain ⟨-, hcw, hrw, -⟩ := h
  simp [commandByte, windowCommand, hcw.symm, hrw.symm]

/-- The two data bytes of a 16-bit word, one after the other (R34). -/
def dataHalf (n : Nat) (v : Half) (p : Panel) : Panel :=
  (p.dataByte n (v.extractLsb' 8 8)).dataByte n (v.extractLsb' 0 8)

theorem dataHalf_col_first (n : Nat) (v : Half) (p : Panel) (h : p.mode = .col []) :
    p.dataHalf n v = { p with mode := .col [v.extractLsb' 8 8, v.extractLsb' 0 8] } := by
  simp [dataHalf, dataByte, h]

theorem dataHalf_col_second (n : Nat) (u v : Half) (p : Panel)
    (h : p.mode = .col [u.extractLsb' 8 8, u.extractLsb' 0 8]) :
    p.dataHalf n v = { p with xs := u, xe := v, mode := .idle } := by
  simp [dataHalf, dataByte, h, half_bytes]

theorem dataHalf_row_first (n : Nat) (v : Half) (p : Panel) (h : p.mode = .row []) :
    p.dataHalf n v = { p with mode := .row [v.extractLsb' 8 8, v.extractLsb' 0 8] } := by
  simp [dataHalf, dataByte, h]

theorem dataHalf_row_second (n : Nat) (u v : Half) (p : Panel)
    (h : p.mode = .row [u.extractLsb' 8 8, u.extractLsb' 0 8]) :
    p.dataHalf n v = { p with ys := u, ye := v, mode := .idle } := by
  simp [dataHalf, dataByte, h, half_bytes]

/-- In a memory write the two bytes are one pixel word (R41). -/
theorem dataHalf_write (n : Nat) (v : Half) (p : Panel) (h : p.mode = .write none) :
    p.dataHalf n v = p.pixel v := by
  obtain ⟨xs, ys, xe, ye, px, py, mode, mem, memUnknown, frame, stage, owed⟩ := p
  subst h
  simp [dataHalf, dataByte, half_bytes]

end Panel

/-! ### Transmissions to a panel that content claims may be made of (R131) -/

theorem contentReady.addressable {s : State} (h : contentReady s) : s.panel.addressable = true := h.1

theorem contentReady.apart {s : State} (h : contentReady s) : commandsApart s.cfg := h.2.2.2

/-- A trace that ends at rest and leaves the panel addressable keeps the premises of content claims. -/
theorem contentReady.performAll {s : State} (h : contentReady s) {t : List Event} (ht : endsAtRest t)
    (ha : (s.performAll t).panel.addressable = true) : contentReady (s.performAll t) := by
  obtain ⟨-, hcs, hrst, hcmd⟩ := h
  obtain ⟨hcs', hrst'⟩ := ht s.pins ⟨hcs, hrst⟩
  exact ⟨ha, by simpa using hcs', by simpa using hrst', by simpa using hcmd⟩

/-- A command other than sleep-out and display-on. -/
theorem performAll_sendCmd_panel {s : State} (h : contentReady s) (c : Byte) (hs : c ≠ s.cfg.cmdSlpout)
    (hd : c ≠ s.cfg.cmdDispon) :
    (s.performAll (sendCmd c)).panel = s.panel.unframed.commandByte s.cfg (s.free + 26) c := by
  obtain ⟨ha, hcs, -, -⟩ := h
  have hframe : (s.performAll (sendCmd c)).panel = s.panel.unframed.receiveAll s.cfg (s.free + 26) [.cmd c] := by
    rw [sendCmd, performAll_send_panel _ _ _ _ hcs (Panel.owed_of_addressable ha), Panel.frameStop]
    simp only [bytesOfFrame_byte]
    rfl
  rw [hframe, Panel.receiveAll, List.foldl_cons, List.foldl_nil, Panel.receive_ready _ _ _ s.panel.unframed ha]
  exact Panel.bringUp_other _ _ _ _ hs hd

theorem contentReady_sendCmd {s : State} (h : contentReady s) (c : Byte) (hs : c ≠ s.cfg.cmdSlpout)
    (hd : c ≠ s.cfg.cmdDispon) : contentReady (s.performAll (sendCmd c)) := by
  refine h.performAll (endsAtRest_sendCmd c) ?_
  rw [performAll_sendCmd_panel h c hs hd]
  simpa [Panel.commandByte] using h.addressable

theorem performAll_sendHalf_panel {s : State} (h : contentReady s) (v : Half) :
    (s.performAll (sendHalf v)).panel = s.panel.unframed.dataHalf (s.free + 50) v := by
  obtain ⟨ha, hcs, -, -⟩ := h
  have hframe : (s.performAll (sendHalf v)).panel = s.panel.unframed.receiveAll s.cfg (s.free + 50) (halfBytes v) := by
    rw [sendHalf, performAll_send_panel _ _ _ _ hcs (Panel.owed_of_addressable ha), Panel.frameStop]
    simp only [bytesOfFrame_half]
    rfl
  rw [hframe]
  simp [halfBytes, Panel.receiveAll, Panel.receive_ready, ha, Panel.dataHalf]

theorem contentReady_sendHalf {s : State} (h : contentReady s) (v : Half) :
    contentReady (s.performAll (sendHalf v)) := by
  refine h.performAll (endsAtRest_sendHalf v) ?_
  rw [performAll_sendHalf_panel h v]
  simpa [Panel.dataHalf] using h.addressable

/-! ### The window set (R39, R40, R43, R89) -/

/-- An address set of R89: a command and its two 16-bit bounds. -/
def addressSet (c : Byte) (lo hi : Half) : List Event := sendCmd c ++ sendHalf lo ++ sendHalf hi

theorem window_eq_addressSets (cfg : Config) (xs ys xe ye : Int) :
    window cfg xs ys xe ye
      = addressSet cfg.cmdCaset (low16 xs) (low16 xe) ++ addressSet cfg.cmdRaset (low16 ys) (low16 ye)
          ++ sendCmd cfg.cmdRamwr := by
  simp [window, addressSet]

theorem performAll_addressSet_panel {s : State} (h : contentReady s) (c : Byte) (lo hi : Half)
    (hs : c ≠ s.cfg.cmdSlpout) (hd : c ≠ s.cfg.cmdDispon) :
    (s.performAll (addressSet c lo hi)).panel
      = ((s.panel.unframed.commandByte s.cfg (s.free + 26) c).unframed.dataHalf (s.free + 77) lo).unframed.dataHalf
          (s.free + 128) hi := by
  have hc := contentReady_sendCmd h c hs hd
  rw [addressSet, performAll_append, performAll_append, performAll_sendHalf_panel (contentReady_sendHalf hc lo),
    performAll_sendHalf_panel hc, performAll_sendCmd_panel h c hs hd]
  simp [Nat.add_assoc]

theorem contentReady_addressSet {s : State} (h : contentReady s) (c : Byte) (lo hi : Half)
    (hs : c ≠ s.cfg.cmdSlpout) (hd : c ≠ s.cfg.cmdDispon) :
    contentReady (s.performAll (addressSet c lo hi)) := by
  rw [addressSet, performAll_append, performAll_append]
  exact contentReady_sendHalf (contentReady_sendHalf (contentReady_sendCmd h c hs hd) lo) hi

/-- A column address set gives the panel its column bounds, whatever it was in the middle of (R39). -/
theorem performAll_columns_panel {s : State} (h : contentReady s) (lo hi : Half) :
    (s.performAll (addressSet s.cfg.cmdCaset lo hi)).panel
      = { (s.panel.interrupt (s.free + 26)).unframed with xs := lo, xe := hi, mode := .idle } := by
  obtain ⟨-, -, -, hs, hd, -⟩ := h.apart
  rw [performAll_addressSet_panel h _ lo hi hs hd, Panel.commandByte_caset, Panel.interrupt_unframed,
    Panel.dataHalf_col_first _ lo _ rfl, Panel.dataHalf_col_second _ lo _ _ rfl]
  rfl

/-- A row address set gives the panel its row bounds (R40). -/
theorem performAll_rows_panel {s : State} (h : contentReady s) (lo hi : Half) :
    (s.performAll (addressSet s.cfg.cmdRaset lo hi)).panel
      = { (s.panel.interrupt (s.free + 26)).unframed with ys := lo, ye := hi, mode := .idle } := by
  obtain ⟨-, -, -, -, -, hs, hd, -⟩ := h.apart
  rw [performAll_addressSet_panel h _ lo hi hs hd, Panel.commandByte_raset _ _ _ h.apart, Panel.interrupt_unframed,
    Panel.dataHalf_row_first _ lo _ rfl, Panel.dataHalf_row_second _ lo _ _ rfl]
  rfl

/-- The panel as a window set leaves it when the window is valid: the bounds, the pointer at the first cell, a memory
write begun and nothing half received (R41, R89). -/
def Panel.openWindow (xs ys xe ye : Half) (p : Panel) : Panel :=
  { p with xs := xs, ys := ys, xe := xe, ye := ye, px := xs.toNat, py := ys.toNat, mode := .write none, frame := [] }

/-- Nothing is left of the mode, window and pointer the panel had before a window set; one that is not valid loses the
frame memory (R39 to R43). -/
theorem performAll_window_panel {s : State} (h : contentReady s) (xs ys xe ye : Int) :
    (s.performAll (window s.cfg xs ys xe ye)).panel
      = (s.panel.openWindow (low16 xs) (low16 ys) (low16 xe) (low16 ye)).memoryWrite := by
  obtain ⟨-, -, -, hcs, hcd, hrs, hrd, hws, hwd⟩ := h.apart
  have hcols := contentReady_addressSet h s.cfg.cmdCaset (low16 xs) (low16 xe) hcs hcd
  have hpcols := performAll_columns_panel h (low16 xs) (low16 xe)
  rw [window_eq_addressSets, performAll_append, performAll_append]
  generalize hs1 : s.performAll (addressSet s.cfg.cmdCaset (low16 xs) (low16 xe)) = s1 at hcols hpcols ⊢
  have hcfg : s.cfg = s1.cfg := by rw [← hs1, performAll_cfg]
  rw [hcfg] at hrs hrd hws hwd ⊢
  have hrows := contentReady_addressSet hcols s1.cfg.cmdRaset (low16 ys) (low16 ye) hrs hrd
  have hprows := performAll_rows_panel hcols (low16 ys) (low16 ye)
  generalize hs2 : s1.performAll (addressSet s1.cfg.cmdRaset (low16 ys) (low16 ye)) = s2 at hrows hprows ⊢
  have hcfg2 : s1.cfg = s2.cfg := by rw [← hs2, performAll_cfg]
  rw [hcfg2] at hws hwd ⊢
  rw [performAll_sendCmd_panel hrows _ hws hwd, Panel.commandByte_ramwr _ _ _ hrows.apart, hprows,
    Panel.interrupt_idle _ _ rfl, hpcols, Panel.interrupt_idle _ _ rfl]
  unfold Panel.interrupt
  split <;> rfl

theorem contentReady_window {s : State} (h : contentReady s) (xs ys xe ye : Int) :
    contentReady (s.performAll (window s.cfg xs ys xe ye)) := by
  refine h.performAll (endsAtRest_window _ _ _ _ _) ?_
  rw [performAll_window_panel h, Panel.memoryWrite_addressable]
  exact h.addressable

/-- R43 in the terms of the claims. -/
theorem Panel.windowValid_iff (p : Panel) : p.windowValid = true ↔ boundsValid p.xs p.ys p.xe p.ye := by
  simp [windowValid, boundsValid]

theorem Panel.memoryWrite_openWindow (xs ys xe ye : Half) (p : Panel) (hv : boundsValid xs ys xe ye) :
    (p.openWindow xs ys xe ye).memoryWrite = p.openWindow xs ys xe ye :=
  if_pos ((windowValid_iff _).mpr hv)

theorem Panel.memoryWrite_openWindow_invalid (xs ys xe ye : Half) (p : Panel) (hv : ¬ boundsValid xs ys xe ye) :
    (p.openWindow xs ys xe ye).memoryWrite = (p.openWindow xs ys xe ye).loseMem :=
  if_neg (mt (windowValid_iff _).mp hv)

theorem performAll_traceSetWindow_panel {s : State} (h : contentReady s) (xs ys xe ye : Half) :
    (s.performAll (traceSetWindow s.cfg xs ys xe ye)).panel = (s.panel.openWindow xs ys xe ye).memoryWrite := by
  simpa [traceSetWindow] using performAll_window_panel h (zext16 xs) (zext16 ys) (zext16 xe) (zext16 ye)

theorem contentReady_traceSetWindow {s : State} (h : contentReady s) (xs ys xe ye : Half) :
    contentReady (s.performAll (traceSetWindow s.cfg xs ys xe ye)) :=
  contentReady_window h _ _ _ _

/-- A panel that lists no byte has no cell a claim can read. -/
theorem frameLost_of_mem_nil {p : Panel} (h : p.mem = []) : frameLost p := by
  intro x y
  unfold Panel.readCell
  split
  · have hcell : p.mem.readCell x y = none := by rw [h]; rfl
    exact ⟨_, by rw [hcell]⟩
  · exact ⟨_, rfl⟩

/-- Settles O41: RAMWR meets the invalid window and drops every byte. -/
theorem invalidWindowLosesTheFrameMemory : Obligations.InvalidWindowLosesTheFrameMemory := by
  unfold Obligations.InvalidWindowLosesTheFrameMemory
  intro s x1 y1 x2 y2 h hv
  apply frameLost_of_mem_nil
  rw [performAll_traceSetWindow_panel h, Panel.memoryWrite_openWindow_invalid _ _ _ _ _ hv, Panel.loseMem_mem]

end Sys2Proof.Machine
end

section
/-! PROOFS. Pixel words in a window that was set: the write pointer's way through it, and one word too many (R41). -/

namespace Sys2Proof.Machine

/-! ### Pixel words (R41) -/

namespace Panel

@[simp] theorem pixel_mode (w : Half) (p : Panel) : (p.pixel w).mode = p.mode := by
  unfold pixel advancePointer
  split
  · split <;> rfl
  · rfl

@[simp] theorem pixel_frame (w : Half) (p : Panel) : (p.pixel w).frame = p.frame := by
  unfold pixel advancePointer
  split
  · split <;> rfl
  · rfl

/-- Pixel words one after the other. -/
def pixels (cs : List Half) (p : Panel) : Panel := cs.foldl (fun q c => q.pixel c) p

@[simp] theorem pixels_nil (p : Panel) : p.pixels [] = p := rfl
@[simp] theorem pixels_cons (c : Half) (cs : List Half) (p : Panel) : p.pixels (c :: cs) = (p.pixel c).pixels cs := rfl

theorem pixels_append (as bs : List Half) (p : Panel) : p.pixels (as ++ bs) = (p.pixels as).pixels bs :=
  List.foldl_append

theorem unframed_of_frame_nil {p : Panel} (h : p.frame = []) : p.unframed = p := by
  rw [unframed, ← h]

end Panel

/-- In a memory write each 16-bit data word is a pixel word. -/
theorem performAll_pixels_panel {s : State} (h : contentReady s) (hmode : s.panel.mode = .write none)
    (hframe : s.panel.frame = []) (cs : List Half) :
    (s.performAll (cs.flatMap sendHalf)).panel = s.panel.pixels cs := by
  induction cs generalizing s with
  | nil => rfl
  | cons c cs ih =>
    have hpixel : (s.performAll (sendHalf c)).panel = s.panel.pixel c := by
      rw [performAll_sendHalf_panel h, Panel.unframed_of_frame_nil hframe, Panel.dataHalf_write _ _ _ hmode]
    rw [List.flatMap_cons, performAll_append, ih (contentReady_sendHalf h c), hpixel, Panel.pixels_cons]
    · rw [hpixel, Panel.pixel_mode, hmode]
    · rw [hpixel, Panel.pixel_frame, hframe]

/-- A valid window set and the words after it. -/
theorem performAll_pixelStream_panel {s : State} (h : contentReady s) (xs ys xe ye : Half)
    (hv : boundsValid xs ys xe ye) (cs : List Half) :
    (s.performAll (traceSetWindow s.cfg xs ys xe ye ++ cs.flatMap sendHalf)).panel
      = (s.panel.openWindow xs ys xe ye).pixels cs := by
  have hp := performAll_traceSetWindow_panel h xs ys xe ye
  rw [Panel.memoryWrite_openWindow _ _ _ _ _ hv] at hp
  rw [performAll_append, performAll_pixels_panel (contentReady_traceSetWindow h _ _ _ _), hp]
  · rw [hp]; rfl
  · rw [hp]; rfl

/-! ### The write pointer's way through the window (R41) -/

/-- The number of columns, or of rows, from `lo` to `hi`. -/
def extent (lo hi : Half) : Nat := hi.toNat - lo.toNat + 1

theorem extent_pos (lo hi : Half) : 0 < extent lo hi := Nat.succ_pos _

/-- The number of cells a valid window has. -/
def windowSize (x1 y1 x2 y2 : Half) : Nat := extent x1 x2 * extent y1 y2

/-- Row by row: the next word is in the next column, or at the start of the next row after the last column. -/
theorem div_mod_succ (k w : Nat) (hw : 0 < w) :
    (k % w + 1 < w ∧ (k + 1) / w = k / w ∧ (k + 1) % w = k % w + 1) ∨
    (k % w + 1 = w ∧ (k + 1) / w = k / w + 1 ∧ (k + 1) % w = 0) := by
  have hlt := Nat.mod_lt k hw
  have hk := Nat.mod_add_div k w
  rcases Nat.lt_or_ge (k % w + 1) w with h | h
  · exact .inl ⟨h, (Nat.div_mod_unique hw).mpr ⟨by omega, h⟩⟩
  · exact .inr ⟨by omega, (Nat.div_mod_unique hw).mpr ⟨by rw [Nat.mul_succ]; omega, hw⟩⟩

/-- The panel has the bounds, and its write pointer stands at word `k` of the window, counted row by row from 0; past
the last word it stands below the last row. -/
structure Panel.AtWord (x1 y1 x2 y2 : Half) (k : Nat) (p : Panel) : Prop where
  xs : p.xs = x1
  ys : p.ys = y1
  xe : p.xe = x2
  ye : p.ye = y2
  px : p.px = x1.toNat + k % extent x1 x2
  py : p.py = y1.toNat + k / extent x1 x2

namespace Panel

theorem atWord_openWindow (x1 y1 x2 y2 : Half) (p : Panel) : AtWord x1 y1 x2 y2 0 (p.openWindow x1 y1 x2 y2) :=
  ⟨rfl, rfl, rfl, rfl, by simp [openWindow], by simp [openWindow]⟩

variable {x1 y1 x2 y2 : Half} {k : Nat} {p : Panel}

theorem AtWord.advance (h : AtWord x1 y1 x2 y2 k p) (hv : boundsValid x1 y1 x2 y2) :
    AtWord x1 y1 x2 y2 (k + 1) p.advancePointer := by
  obtain ⟨hxs, hys, hxe, hye, hpx, hpy⟩ := h
  obtain ⟨hx, -⟩ := hv
  have hext : extent x1 x2 = x2.toNat - x1.toNat + 1 := rfl
  unfold advancePointer
  rcases div_mod_succ k (extent x1 x2) (extent_pos x1 x2) with ⟨hlt, hdiv, hmod⟩ | ⟨hlast, hdiv, hmod⟩
  · rw [if_neg (by rw [hxe]; omega)]
    exact ⟨hxs, hys, hxe, hye, by simp only; omega, by simp only; omega⟩
  · rw [if_pos (by rw [hxe]; omega)]
    exact ⟨hxs, hys, hxe, hye, by simp only [hxs]; omega, by simp only; omega⟩

theorem AtWord.windowValid (h : AtWord x1 y1 x2 y2 k p) (hv : boundsValid x1 y1 x2 y2) : p.windowValid = true := by
  rw [windowValid_iff, h.xs, h.ys, h.xe, h.ye]
  exact hv

/-- The pointer is in the window at the words the window has, and at no other. -/
theorem AtWord.pointerIn_iff (h : AtWord x1 y1 x2 y2 k p) (hv : boundsValid x1 y1 x2 y2) :
    p.pointerIn = true ↔ k < windowSize x1 y1 x2 y2 := by
  obtain ⟨hxs, hys, hxe, hye, hpx, hpy⟩ := h
  obtain ⟨hx, -, hy, -⟩ := hv
  have hcol := Nat.mod_lt k (extent_pos x1 x2)
  have hrow : k / extent x1 x2 < extent y1 y2 ↔ k < windowSize x1 y1 x2 y2 := by
    rw [windowSize, Nat.mul_comm, Nat.div_lt_iff_lt_mul (extent_pos x1 x2)]
  rw [← hrow]
  simp only [pointerIn, hxs, hys, hxe, hye, hpx, hpy, decide_eq_true_eq]
  generalize k % extent x1 x2 = col at hcol ⊢
  generalize k / extent x1 x2 = row
  unfold extent at hcol ⊢
  omega

/-- A word of the window is written to the pointer's cell, and the pointer moves on. -/
theorem AtWord.pixel_eq (h : AtWord x1 y1 x2 y2 k p) (hv : boundsValid x1 y1 x2 y2)
    (hk : k < windowSize x1 y1 x2 y2) (c : Half) :
    p.pixel c = ({ p with mem := p.mem.writeCell p.px p.py c } : Panel).advancePointer := by
  simp [pixel, h.windowValid hv, (h.pointerIn_iff hv).mpr hk]

/-- One word more than the window has loses the frame memory (U1). -/
theorem AtWord.pixel_exhausted (h : AtWord x1 y1 x2 y2 k p) (hv : boundsValid x1 y1 x2 y2)
    (hk : ¬ k < windowSize x1 y1 x2 y2) (c : Half) : p.pixel c = p.loseMem := by
  have hout : p.pointerIn = false := by
    rw [Bool.eq_false_iff, ne_eq, h.pointerIn_iff hv]
    exact hk
  simp [pixel, hout]

theorem AtWord.pixel (h : AtWord x1 y1 x2 y2 k p) (hv : boundsValid x1 y1 x2 y2)
    (hk : k < windowSize x1 y1 x2 y2) (c : Half) :
    AtWord x1 y1 x2 y2 (k + 1) (p.pixel c) := by
  rw [h.pixel_eq hv hk]
  exact AtWord.advance ⟨h.xs, h.ys, h.xe, h.ye, h.px, h.py⟩ hv

theorem AtWord.pixels (hv : boundsValid x1 y1 x2 y2) (cs : List Half) (h : AtWord x1 y1 x2 y2 k p)
    (hk : k + cs.length ≤ windowSize x1 y1 x2 y2) :
    AtWord x1 y1 x2 y2 (k + cs.length) (p.pixels cs) := by
  induction cs generalizing k p with
  | nil => exact h
  | cons c cs ih =>
    rw [List.length_cons] at hk ⊢
    rw [show k + (cs.length + 1) = (k + 1) + cs.length by omega, pixels_cons]
    exact ih (h.pixel hv (by omega) c) (by omega)

end Panel

/-- Settles O42: after as many words as the window has cells the pointer is below it, and the last word finds it so. -/
theorem exhaustedWindowLosesTheFrameMemory : Obligations.ExhaustedWindowLosesTheFrameMemory := by
  unfold Obligations.ExhaustedWindowLosesTheFrameMemory
  intro s x1 y1 x2 y2 cs h hv hlen
  obtain rfl | ⟨front, last, rfl⟩ := List.eq_nil_or_concat' cs
  · simp at hlen
  have hfront : front.length = windowSize x1 y1 x2 y2 := by simpa [windowSize, extent] using hlen
  have hend := (Panel.atWord_openWindow x1 y1 x2 y2 s.panel).pixels hv front (by omega)
  apply frameLost_of_mem_nil
  rw [performAll_pixelStream_panel h _ _ _ _ hv, Panel.pixels_append, Panel.pixels_cons, Panel.pixels_nil,
    hend.pixel_exhausted hv (by omega), Panel.loseMem_mem]

end Sys2Proof.Machine
end

section
/-! PROOFS. The rows of the opcode table, the words of a row, what the decoder answers on them, and the statements of
30_encoding.md about decoding and encoding (R59 to R62, R67, R68). -/

namespace Sys2Proof

open Laws Machine

/-! ### The rows of the opcode table (R59) -/

@[simp] theorem rowOfOp_op (o : Op) : (rowOfOp o).op = o := by
  cases o <;> rfl

theorem rowOfOp_mem_rows (o : Op) : rowOfOp o ∈ rows := by
  cases o <;> decide

theorem rowOfOp_of_mem_rows : ∀ r ∈ rows, rowOfOp r.op = r := by
  decide

/-- The value of a row is its opcode, with every other bit 0. -/
theorem rowOfOp_value (o : Op) : (rowOfOp o).value = o.number.setWidth 96 := by
  cases o <;> rfl

@[simp] theorem fieldOp_rowOfOp_value (o : Op) : fieldOp (rowOfOp o).value = o.number := by
  cases o <;> rfl

/-- The mask of a row covers OP. -/
@[simp] theorem fieldOp_rowOfOp_mask (o : Op) : fieldOp (rowOfOp o).mask = BitVec.allOnes 8 := by
  cases o <;> rfl

@[simp] theorem rowOf_number (o : Op) : rowOf o.number = some (rowOfOp o) := by
  cases o <;> rfl

/-- No row has a reserved opcode (R61). -/
theorem rowOf_reserved (b : Byte) (h : 0x0D ≤ b.toNat) : rowOf b = none := by
  have hassigned : ∀ r ∈ rows, (fieldOp r.value).toNat < 0x0D := by decide
  refine List.find?_eq_none.mpr fun r hr heq => ?_
  have hlt := hassigned r hr
  rw [eq_of_beq heq] at hlt
  omega

/-- An opcode that is not reserved is the number of a command. -/
theorem exists_number_of_lt (b : Byte) (h : b.toNat < 0x0D) : ∃ o : Op, b = o.number := by
  have hall : ∀ b : Byte, b.toNat < 0x0D → ∃ o ∈ Op.all, b = o.number := by decide
  obtain ⟨o, -, ho⟩ := hall b h
  exact ⟨o, ho⟩

/-! ### Vectors without high bits -/

/-- A mask of the bits from `k` on clears a vector exactly when its low `k` bits are all of it. -/
theorem and_highMask_eq_zero_iff {n : Nat} (k : Nat) (v : BitVec n) :
    v &&& (BitVec.allOnes n <<< k) = 0 ↔ (v.extractLsb' 0 k).setWidth n = v := by
  simp only [BitVec.eq_of_getLsbD_eq_iff]
  refine forall₂_congr fun i hi => ?_
  simp [hi]

/-- The bits from `k` on are zero exactly when the low `k` bits are all of the vector. -/
theorem highBits_eq_zero_iff {n : Nat} (k : Nat) (v : BitVec n) :
    v.extractLsb' k (n - k) = 0 ↔ (v.extractLsb' 0 k).setWidth n = v := by
  rw [← and_highMask_eq_zero_iff]
  simp only [BitVec.eq_of_getLsbD_eq_iff]
  constructor
  · intro h i hi
    by_cases hk : i < k
    · simp [hk]
    · have hbit := h (i - k) (by omega)
      rw [BitVec.getLsbD_extractLsb', show k + (i - k) = i by omega] at hbit
      simp_all [show i - k < n - k by omega]
  · intro h i hi
    have hbit := h (k + i) (by omega)
    simp_all [show k + i < n by omega]

/-- R60 (c) in the two forms of the model, a mask and a field. -/
theorem half_and_byteMask (a : Half) : a &&& 0xFF00#16 = 0#16 ↔ a.extractLsb' 8 8 = 0#8 :=
  (and_highMask_eq_zero_iff 8 a).trans (highBits_eq_zero_iff 8 a).symm

/-- R60 (d) in the two forms of the model, a mask and a field. -/
theorem half_and_orientMask (a : Half) : a &&& 0xFFFC#16 = 0#16 ↔ a.extractLsb' 2 14 = 0#14 :=
  (and_highMask_eq_zero_iff 2 a).trans (highBits_eq_zero_iff 2 a).symm

theorem half_and_ones (a : Half) : a &&& 0xFFFF#16 = a := BitVec.and_allOnes

theorem byte_and_ones (a : Byte) : a &&& 0xFF#8 = a := BitVec.and_allOnes

/-! ### The words of a row (R59, R60) -/

/-- A word is a word of the command's row: `word & mask = value`. -/
def inRow (o : Op) (w : CmdWord) : Prop := w &&& (rowOfOp o).mask = (rowOfOp o).value

/-- The must-be-zero bits of a row: what its mask covers above OP. -/
def mustBeZeroMask (o : Op) : CmdWord := (rowOfOp o).mask &&& ~~~(0xFF#96)

theorem fieldOp_and_mask (o : Op) (w : CmdWord) : fieldOp (w &&& (rowOfOp o).mask) = fieldOp w := by
  rw [fieldOp_and, fieldOp_rowOfOp_mask, BitVec.and_allOnes]

theorem inRow.fieldOp_eq {o : Op} {w : CmdWord} (h : inRow o w) : fieldOp w = o.number := by
  rw [← fieldOp_and_mask o, h, fieldOp_rowOfOp_value]

theorem inRow_unique {o o' : Op} {w : CmdWord} (h : inRow o w) (h' : inRow o' w) : o = o' := by
  have hrow : some (rowOfOp o) = some (rowOfOp o') := by
    rw [← rowOf_number, ← rowOf_number, ← h.fieldOp_eq, h'.fieldOp_eq]
  rw [← rowOfOp_op o, Option.some.inj hrow, rowOfOp_op]

/-- Among the words with the row's opcode those of the row have no must-be-zero bit. -/
theorem inRow_iff_and_mustBeZeroMask {o : Op} {w : CmdWord} (hop : fieldOp w = o.number) :
    inRow o w ↔ w &&& mustBeZeroMask o = 0 := by
  rw [mustBeZeroMask, ← BitVec.and_assoc, show ~~~(0xFF#96) = BitVec.allOnes 96 <<< 8 from rfl,
    and_highMask_eq_zero_iff, ← fieldOp, fieldOp_and_mask, hop, ← rowOfOp_value, eq_comm, inRow]

/-- A mask clears a word when it clears each of the seven fields. -/
theorem and_eq_zero_iff_fields (v w : CmdWord) : v &&& w = 0 ↔
    fieldOp v &&& fieldOp w = 0 ∧ fieldRsv v &&& fieldRsv w = 0 ∧ fieldA v &&& fieldA w = 0 ∧
    fieldB v &&& fieldB w = 0 ∧ fieldC v &&& fieldC w = 0 ∧ fieldD v &&& fieldD w = 0 ∧ fieldE v &&& fieldE w = 0 := by
  simp only [← fieldOp_and, ← fieldRsv_and, ← fieldA_and, ← fieldB_and, ← fieldC_and, ← fieldD_and, ← fieldE_and]
  constructor
  · intro h
    rw [h]
    decide
  · rintro ⟨hop, hr, ha, hb, hc, hd, he⟩
    exact cmdWord_ext _ 0 hop ha hb hc hd he hr

/-- The masks of the table say what R60 says field by field. -/
theorem inRow_iff_mustBeZeroClear {o : Op} {w : CmdWord} (hop : fieldOp w = o.number) :
    inRow o w ↔ mustBeZeroClear o w := by
  rw [inRow_iff_and_mustBeZeroMask hop, and_eq_zero_iff_fields]
  cases o <;> simp [mustBeZeroClear, mustBeZeroMask, rowOfOp, rows, fieldOp, fieldA, fieldB, fieldC, fieldD, fieldE,
    fieldRsv, half_and_ones, byte_and_ones, half_and_byteMask, half_and_orientMask]

/-- The word of a command is a word of the command's row (R68). -/
theorem inRow_encode : (i : Instr) → inRow i.op (encode i)
  | .nop => EncodesToItsRow.nop.2
  | .sendCmd8 v => (EncodesToItsRow.sendCmd8 v).2
  | .sendData8 v => (EncodesToItsRow.sendData8 v).2
  | .sendData16 v => (EncodesToItsRow.sendData16 v).2
  | .panelReset => EncodesToItsRow.panelReset.2
  | .delay ms => (EncodesToItsRow.delay ms).2
  | .init orient => (EncodesToItsRow.init orient).2
  | .setWindow xs ys xe ye => (EncodesToItsRow.setWindow xs ys xe ye).2
  | .drawPoint x y color => (EncodesToItsRow.drawPoint x y color).2
  | .drawLine x1 y1 x2 y2 color => (EncodesToItsRow.drawLine x1 y1 x2 y2 color).2
  | .drawRect x1 y1 x2 y2 color => (EncodesToItsRow.drawRect x1 y1 x2 y2 color).2
  | .drawCircle x0 y0 r color => (EncodesToItsRow.drawCircle x0 y0 r color).2
  | .clear color => (EncodesToItsRow.clear color).2

/-! ### Reading the operands and writing them (R58, R68) -/

@[simp] theorem readOperands_op (o : Op) (w : CmdWord) : (readOperands o w).op = o := by
  cases o <;> rfl

theorem readOperands_encode (i : Instr) : readOperands i.op (encode i) = i := by
  cases i <;> simp [readOperands, encode, Instr.op, byte_field_back, orient_field_back]

/-- A word whose RSV is zero is made of its other six fields. -/
theorem encodeFields_fields {w : CmdWord} (hr : fieldRsv w = 0) :
    encodeFields (fieldOp w) (fieldA w) (fieldB w) (fieldC w) (fieldD w) (fieldE w) = w := by
  apply cmdWord_ext <;> simp [hr]

/-- The fields a row marks 0 are written as 0, and a narrow operand is all of its field. -/
theorem encode_readOperands {o : Op} {w : CmdWord} (h : inRow o w) : encode (readOperands o w) = w := by
  obtain ⟨hr, hfields⟩ := (inRow_iff_mustBeZeroClear h.fieldOp_eq).mp h
  conv => rhs; rw [← encodeFields_fields hr, h.fieldOp_eq]
  have hbyte := (highBits_eq_zero_iff 8 (fieldA w)).mp
  have horient := (highBits_eq_zero_iff 2 (fieldA w)).mp
  cases o <;> simp_all [encode, readOperands, Instr.op]

/-! ### What the decoder answers (R67) -/

theorem decode_of_inRow {o : Op} {w : CmdWord} (h : inRow o w) : decode w = .legal (readOperands o w) := by
  have hmatch : w &&& (rowOfOp o).mask = (rowOfOp o).value := h
  simp [decode, h.fieldOp_eq, hmatch]

theorem decode_of_not_inRow {o : Op} {w : CmdWord} (hop : fieldOp w = o.number) (h : ¬ inRow o w) :
    decode w = .illegal (.nonzeroReservedBits (w &&& mustBeZeroMask o)) := by
  have hmatch : ¬ w &&& (rowOfOp o).mask = (rowOfOp o).value := h
  simp [decode, hop, hmatch, mustBeZeroMask, BitVec.and_assoc]

theorem decode_reserved (w : CmdWord) (h : 0x0D ≤ (fieldOp w).toNat) :
    decode w = .illegal (.reservedOpcode (fieldOp w)) := by
  rw [decode, rowOf_reserved _ h]

/-- The decoder answers a command exactly on the words of a row, and reads the operands from them. -/
theorem decode_eq_legal_iff {w : CmdWord} {i : Instr} :
    decode w = .legal i ↔ ∃ o, inRow o w ∧ readOperands o w = i := by
  constructor
  · intro h
    rcases Nat.lt_or_ge (fieldOp w).toNat 0x0D with hassigned | hreserved
    · obtain ⟨o, hop⟩ := exists_number_of_lt _ hassigned
      by_cases hrow : inRow o w
      · rw [decode_of_inRow hrow] at h
        exact ⟨o, hrow, Decoded.legal.inj h⟩
      · rw [decode_of_not_inRow hop hrow] at h
        cases h
    · rw [decode_reserved w hreserved] at h
      cases h
  · rintro ⟨o, hrow, rfl⟩
    exact decode_of_inRow hrow

/-! ### The statements -/

/-- Settles O1: the word of a command is a word of its row, and each operand is read back from its field. -/
theorem decodeOfEncodeIsIdentity : Obligations.DecodeOfEncodeIsIdentity := by
  intro i
  rw [decode_of_inRow (inRow_encode i), readOperands_encode]

/-- Settles O2: a legal word is a word of a row, where its fields are its operands and zeros. -/
theorem encodeOfDecodeIsIdentity : Obligations.EncodeOfDecodeIsIdentity := by
  intro w i h
  obtain ⟨o, hrow, rfl⟩ := decode_eq_legal_iff.mp h
  exact encode_readOperands hrow

/-- Settles O3: no row of the table has the opcode. -/
theorem reservedOpcodesAreIllegal : Obligations.ReservedOpcodesAreIllegal := decode_reserved

/-- Settles O4: both clauses of R60 are about the word being a word of the opcode's row. -/
theorem mustBeZeroBitsDecideLegality : Obligations.MustBeZeroBitsDecideLegality := by
  intro w o hop
  rw [← inRow_iff_mustBeZeroClear hop]
  exact ⟨fun h => ⟨readOperands o w, readOperands_op o w, decode_of_inRow h⟩,
    fun h => ⟨w &&& mustBeZeroMask o, mt (inRow_iff_and_mustBeZeroMask hop).mpr h, decode_of_not_inRow hop h⟩⟩

/-- Settles O5: every row is the row of its opcode, and a word is in the row of one opcode only. -/
theorem legalWordsAreOneRow : Obligations.LegalWordsAreOneRow := by
  intro w
  constructor
  · rintro ⟨i, h⟩
    obtain ⟨o, hrow, -⟩ := decode_eq_legal_iff.mp h
    refine ⟨rowOfOp o, ⟨rowOfOp_mem_rows o, hrow⟩, ?_⟩
    rintro r ⟨hr, hw⟩
    rw [← rowOfOp_of_mem_rows r hr] at hw ⊢
    rw [inRow_unique hw hrow]
  · rintro ⟨r, ⟨hr, hw⟩, -⟩
    rw [← rowOfOp_of_mem_rows r hr] at hw
    exact ⟨_, decode_of_inRow hw⟩

/-- Settles O6: thirteen closed words, evaluated. -/
theorem writtenWordsDecode : Obligations.WrittenWordsDecode := by
  unfold Obligations.WrittenWordsDecode
  decide

end Sys2Proof
end

section
/-! PROOFS. The statements of 30_encoding.md about assembly: operands in range (R64) and the pseudo-instructions (R65). -/

namespace Sys2Proof.Machine

/-! ### Operands in their fields' ranges (R64) -/

@[simp] theorem inRange_u8 (v : Byte) : OperandKind.inRange .u8 (v.toNat : Int) = true :=
  decide_eq_true (by omega)

@[simp] theorem inRange_u2 (v : BitVec 2) : OperandKind.inRange .u2 (v.toNat : Int) = true :=
  decide_eq_true (by omega)

@[simp] theorem inRange_u16 (v : Half) : OperandKind.inRange .u16 (zext16 v : Int) = true :=
  decide_eq_true (by rw [zext16]; omega)

@[simp] theorem inRange_s16 (v : Half) : OperandKind.inRange .s16 (sext16 v) = true :=
  decide_eq_true ⟨BitVec.le_toInt v, Int.le_of_lt_add_one BitVec.toInt_lt⟩

theorem all_inRange_u8 (ps : List Byte) :
    ((List.replicate ps.length OperandKind.u8).zip (ps.map fun p => (p.toNat : Int))).all
      (fun ko => ko.1.inRange ko.2) = true := by
  induction ps with
  | nil => rfl
  | cons p ps ih => simp_all [List.replicate_succ]

/-- A statement with as many operands as its mnemonic takes, each in range, is assembled. -/
theorem assembleStmt_of_inRange {a : AsmStmt} {kinds : List OperandKind}
    (hkinds : asmKinds a.mnemonic a.operands.length = some kinds) (hlen : kinds.length = a.operands.length)
    (hrange : (kinds.zip a.operands).all (fun ko => ko.1.inRange ko.2) = true) :
    assembleStmt a = .ok (expandStmt a) := by
  simp [assembleStmt, AsmStmt.check, hkinds, hlen, hrange]

/-! ### The statement of a command (R64) -/

@[simp] theorem ofMnemonic_mnemonic (o : Op) : Op.ofMnemonic o.mnemonic = some o := by
  cases o <;> rfl

theorem asmKinds_mnemonic (o : Op) (n : Nat) : asmKinds o.mnemonic n = some o.operandKinds := by
  simp [asmKinds]

theorem disassemble_length (i : Instr) : i.op.operandKinds.length = (disassemble i).operands.length := by
  cases i <;> rfl

theorem disassemble_inRange (i : Instr) :
    (i.op.operandKinds.zip (disassemble i).operands).all (fun ko => ko.1.inRange ko.2) = true := by
  cases i <;> simp [Instr.op, Op.operandKinds, disassemble]

theorem expandStmt_disassemble (i : Instr) : expandStmt (disassemble i) = [i] := by
  cases i <;> simp [Instr.op, Op.mnemonic, disassemble, expandStmt]

/-! ### The statements -/

/-- Settles O8: the statement of a command is well formed and stands for the command. -/
theorem assemblerEncodesEveryOperand : Obligations.AssemblerEncodesEveryOperand := by
  intro i
  rw [assembleStmt_of_inRange (asmKinds_mnemonic i.op _) (disassemble_length i) (disassemble_inRange i),
    expandStmt_disassemble]

theorem panelCmd_expands (c : Byte) (ps : List Byte) :
    assembleStmt { mnemonic := "PANEL_CMD", operands := (c.toNat : Int) :: ps.map (fun p => (p.toNat : Int)) }
      = .ok (.sendCmd8 c :: ps.map (fun p => .sendData8 p)) := by
  have hkinds (n : Nat) : asmKinds "PANEL_CMD" n = some (List.replicate (max n 1) .u8) := rfl
  rw [assembleStmt_of_inRange (hkinds _) (by simp) (by simpa using all_inRange_u8 (c :: ps))]
  simp [expandStmt]

theorem pixel_expands (c : Half) :
    assembleStmt { mnemonic := "PIXEL", operands := [(zext16 c : Int)] } = .ok [.sendData16 c] := by
  rw [assembleStmt_of_inRange (kinds := [.u16]) rfl rfl (by simp)]
  simp [expandStmt]

theorem hline_expands (x1 x2 y c : Half) :
    assembleStmt { mnemonic := "HLINE", operands := [sext16 x1, sext16 x2, sext16 y, (zext16 c : Int)] }
      = .ok [.drawLine x1 y x2 y c] := by
  rw [assembleStmt_of_inRange (kinds := [.s16, .s16, .s16, .u16]) rfl rfl (by simp)]
  simp [expandStmt]

theorem vline_expands (x y1 y2 c : Half) :
    assembleStmt { mnemonic := "VLINE", operands := [sext16 x, sext16 y1, sext16 y2, (zext16 c : Int)] }
      = .ok [.drawLine x y1 x y2 c] := by
  rw [assembleStmt_of_inRange (kinds := [.s16, .s16, .s16, .u16]) rfl rfl (by simp)]
  simp [expandStmt]

/-- Settles O9: one lemma for each pseudo-instruction. -/
theorem pseudoInstructionsExpand : Obligations.PseudoInstructionsExpand :=
  ⟨panelCmd_expands, pixel_expands, hline_expands, vline_expands⟩

end Sys2Proof.Machine
end

section
/-! PROOFS. The statements of 40_bitlink.md: `Send` as its listed events (R71), the frame the panel samples from it
(R73), and the three SEND commands (R74 to R76). -/

namespace Sys2Proof.Machine

/-! ### `Send` and its frame in the rules' own forms (R71, R73) -/

theorem sendBits_eq_flatMap (w : Nat) (v : BitVec w) (n : Nat) :
    sendBits w v n
      = (List.range n).reverse.flatMap (fun i => [.w .sclk false, .w .sda (v.getLsbD i), .w .sclk true]) := by
  induction n with
  | zero => rfl
  | succ n ih => simp [sendBits, ih, List.range_succ]

theorem send_eq_transmission (w : Nat) (v : BitVec w) (d : Bool) : send w v d = transmission w v d := by
  rw [send, sendBits_eq_flatMap]
  rfl

theorem sentSamples_eq_map (w : Nat) (v : BitVec w) (d : Bool) (n : Nat) :
    sentSamples w v d n = (List.range n).reverse.map (fun i => { dc := d, sda := v.getLsbD i }) := by
  induction n with
  | zero => rfl
  | succ n ih => simp [sentSamples, ih, List.range_succ]

theorem wireFrames_send (w : Nat) (v : BitVec w) (d : Bool) (p : Pins) (hcs : p.csN = true) :
    wireFrames p (send w v d) = [frameOf w v d] := by
  have hframes := framesFrom_send w v d p [] [] hcs
  rw [List.append_nil, sentSamples_eq_map] at hframes
  exact hframes

/-- Settles O29. -/
theorem sendIsSampledMostSignificantBitFirst : Obligations.SendIsSampledMostSignificantBitFirst := wireFrames_send

/-- Settles O28: `send` and `transmission` are one list of events, at every width; only the final level of SDA needs a
bit to be sent. -/
theorem sendIsTheListedEvents : Obligations.SendIsTheListedEvents := by
  intro w v d hw
  have hne : w ≠ 0 := by omega
  exact ⟨send_eq_transmission w v d, send_length w v d, fun p => afterAll_send w v d p hne⟩

/-! ### The SEND commands (R74 to R76) -/

theorem byteStream_transmission (w : Nat) (v : BitVec w) (d : Bool) (p : Pins) (hcs : p.csN = true) :
    byteStream p (transmission w v d) = (bytesOfFrame (sentSamples w v d w)).getD [] := by
  simpa [send_eq_transmission] using byteStream_send_append w v d p [] hcs

theorem byteStream_transmission_byte (v : Byte) (d : Bool) (p : Pins) (hcs : p.csN = true) :
    byteStream p (transmission 8 v d) = [sentByte d v] := by
  rw [byteStream_transmission 8 v d p hcs, bytesOfFrame_byte]
  rfl

theorem byteStream_transmission_half (v : Half) (p : Pins) (hcs : p.csN = true) :
    byteStream p (transmission 16 v true) = halfBytes v := by
  rw [byteStream_transmission 16 v true p hcs, bytesOfFrame_half]
  rfl

/-- Settles O30: each command's trace is one `send`, whose frame is the bits of its byte or of its two bytes. -/
theorem sendCommandsSendOneWord : Obligations.SendCommandsSendOneWord := by
  refine ⟨fun v s => ?_, fun v s => ?_, fun v s => ?_, fun p hcs => ⟨fun v => ?_, fun v => ?_, fun v => ?_⟩⟩
  · rw [← send_eq_transmission]
    exact exec_eq_trace (.sendCmd8 v) s
  · rw [← send_eq_transmission]
    exact exec_eq_trace (.sendData8 v) s
  · rw [← send_eq_transmission]
    exact exec_eq_trace (.sendData16 v) s
  · exact byteStream_transmission_byte v false p hcs
  · exact byteStream_transmission_byte v true p hcs
  · exact byteStream_transmission_half v p hcs

end Sys2Proof.Machine
end

section
/-! PROOFS. The tables R84 admits: the tail they end with, their one orientation entry, and that they are the built
tables. -/

namespace Sys2Proof.Config

theorem wf_iff (cfg : Config) :
    cfg.wf = true ↔ cfg.orientOk = true ∧ cfg.colmodOk = true ∧ cfg.tailOk = true ∧ cfg.waitsOk = true ∧
      0 < cfg.ticksPerMs := by
  simp [wf, and_assoc]

/-- R84 (c), as a split of the table. -/
theorem initTable_eq_of_tailOk {cfg : Config} (h : cfg.tailOk = true) :
    cfg.initTable = tableHead cfg.initTable ++ cfg.tailEntries := by
  rw [← of_decide_eq_true h, tableHead, List.take_append_drop]

theorem initTable_ne_nil {cfg : Config} (h : cfg.wf = true) : cfg.initTable ≠ [] := by
  obtain ⟨-, -, htail, -, -⟩ := cfg.wf_iff.mp h
  rw [initTable_eq_of_tailOk htail]
  simp [tailEntries]

/-- R84 (a), as a split at the orientation entry: no entry before it or after it holds the placeholder. -/
theorem split_at_madctlEntry {cfg : Config} {t : List InitEntry} (h : t.filter entryHasOrient = [cfg.madctlEntry]) :
    ∃ as bs, t = as ++ cfg.madctlEntry :: bs ∧ (∀ e ∈ as, entryHasOrient e = false) ∧
      ∀ e ∈ bs, entryHasOrient e = false := by
  obtain ⟨as, bs, rfl, has, -, hbs⟩ := List.filter_eq_cons_iff.mp h
  exact ⟨as, bs, rfl, by simpa using has, by simpa [List.filter_eq_nil_iff] using hbs⟩

/-- The pixel-format entry is no tail entry, so it stands before the tail. -/
theorem colmodEntry_mem_tableHead {cfg : Config} (hcolmod : cfg.colmodOk = true) (htail : cfg.tailOk = true) :
    cfg.colmodEntry ∈ tableHead cfg.initTable := by
  have hmem : cfg.colmodEntry ∈ cfg.initTable := List.contains_iff_mem.mp hcolmod
  rw [initTable_eq_of_tailOk htail] at hmem
  exact (List.mem_append.mp hmem).resolve_right (by simp [colmodEntry, tailEntries])

theorem filter_entryHasOrient_tableHead {cfg : Config} (horient : cfg.orientOk = true) (htail : cfg.tailOk = true) :
    (tableHead cfg.initTable).filter entryHasOrient = [cfg.madctlEntry] := by
  have h : cfg.initTable.filter entryHasOrient = [cfg.madctlEntry] := of_decide_eq_true horient
  rw [initTable_eq_of_tailOk htail] at h
  simpa using h

/-- An entry with no placeholder and no wait is a plain one. -/
theorem mem_range_plainEntry {e : InitEntry} (horient : entryHasOrient e = false) (hwait : e.waitMs = 0) :
    e ∈ Set.range plainEntry := by
  have hlits : e.params ∈ Set.range (List.map ParamByte.lit) := by
    rw [Set.range_list_map]
    intro p hp
    cases p with
    | lit b => exact ⟨b, rfl⟩
    | orient => simp [entryHasOrient, hp] at horient
  obtain ⟨bs, hbs⟩ := hlits
  exact ⟨(e.cmd, bs), by rw [plainEntry, hbs, ← hwait]⟩

theorem exists_map_plainEntry {es : List InitEntry} (horient : ∀ e ∈ es, entryHasOrient e = false)
    (hwait : ∀ e ∈ es, e.waitMs = 0) : ∃ ps : List (Byte × List Byte), es = ps.map plainEntry := by
  have hes : es ∈ Set.range (List.map plainEntry) := by
    rw [Set.range_list_map]
    exact fun e he => mem_range_plainEntry (horient e he) (hwait e he)
  obtain ⟨ps, hps⟩ := hes
  exact ⟨ps, hps.symm⟩

/-- A head with one orientation entry, the pixel-format entry and no waits is a built one: every entry but the
orientation entry is plain, and the pixel-format entry is one of those before it or one of those after it. -/
theorem exists_builtHead {cfg : Config} {t : List InitEntry} (horient : t.filter entryHasOrient = [cfg.madctlEntry])
    (hcolmod : cfg.colmodEntry ∈ t) (hwaits : ∀ e ∈ t, e.waitMs = 0) : ∃ p, t = cfg.builtHead p := by
  obtain ⟨as, bs, rfl, has, hbs⟩ := split_at_madctlEntry horient
  simp only [List.forall_mem_append, List.forall_mem_cons] at hwaits
  obtain ⟨hwas, -, hwbs⟩ := hwaits
  obtain ⟨ps, rfl⟩ := exists_map_plainEntry has hwas
  obtain ⟨qs, rfl⟩ := exists_map_plainEntry hbs hwbs
  have hne : cfg.colmodEntry ≠ cfg.madctlEntry := fun h => by simpa using congrArg entryHasOrient h
  simp only [List.mem_append, List.mem_cons, hne, false_or, List.mem_map] at hcolmod
  obtain ⟨c, hc, hcol⟩ | ⟨c, hc, hcol⟩ := hcolmod
  · obtain ⟨before, between, rfl⟩ := List.append_of_mem hc
    exact ⟨⟨before, between, qs, true⟩, by simp [builtHead, hcol]⟩
  · obtain ⟨between, after, rfl⟩ := List.append_of_mem hc
    exact ⟨⟨ps, between, after, false⟩, by simp [builtHead, hcol]⟩

theorem exists_buildTable_of_wf {cfg : Config} (h : cfg.wf = true) : ∃ p, cfg.initTable = cfg.buildTable p := by
  obtain ⟨horient, hcolmod, htail, hwaits, -⟩ := cfg.wf_iff.mp h
  obtain ⟨p, hp⟩ := exists_builtHead (filter_entryHasOrient_tableHead horient htail)
    (colmodEntry_mem_tableHead hcolmod htail) (by simpa [waitsOk] using hwaits)
  exact ⟨p, by rw [buildTable_eq, ← hp, ← initTable_eq_of_tailOk htail]⟩

/-- Settles O10: an admitted table splits at its tail and at its orientation entry, and every other entry is plain; the
other direction is `wf_of_buildTable`. -/
theorem admittedTablesAreTheBuiltOnes : Obligations.AdmittedTablesAreTheBuiltOnes := fun cfg hticks =>
  ⟨exists_buildTable_of_wf, fun ⟨p, ht⟩ => wf_of_buildTable cfg p ht hticks⟩

end Sys2Proof.Config
end

section
/-! PROOFS. The statements of 41_controller_init.md about NOP, PANEL_RESET, DELAY and INIT (R78 to R82, R84, R85,
R87). -/

namespace Sys2Proof.Machine

/-! ### NOP, PANEL_RESET and DELAY (R78 to R80) -/

/-- The edge that accepts a NOP takes the word from the port, latches it and does nothing else. -/
theorem step_nop (s : State) (rest : List HostIn) (hp : s.pending = [])
    (hh : s.host = { rstBlk := false, offer := some 0 } :: rest) :
    step s = .next { s with cur := 0, host := rest } := by
  rw [step_of_legal s 0 .nop (s.rstBlk_cons _ _ hh) hp (s.offered_cons _ _ hh) (by decide), hh]
  simp only [traceOf, traceNop, ← hp, List.tail_cons]

/-- Settles O32: the traces are the listed ones by definition, and a NOP leaves `pending` empty. -/
theorem nopResetPulseAndDelay : Obligations.NopResetPulseAndDelay :=
  ⟨exec_eq_trace .nop, exec_eq_trace .panelReset, fun ms => exec_eq_trace (.delay ms),
    fun s rest hp hh => ⟨_, step_nop s rest hp hh, rfl, rfl, hp⟩⟩

/-! ### The trace of INIT (R81, R82, R84) -/

/-- `EntryTrace` in the rule's own form (R82). -/
theorem entryTrace_eq_transmissions (cfg : Config) (orient : BitVec 2) (e : InitEntry) :
    entryTrace cfg orient e
      = transmission 8 e.cmd false
          ++ e.params.flatMap (fun p => transmission 8 (substParam cfg orient p) true)
          ++ (if e.waitMs = 0 then [] else [.wait e.waitMs]) := by
  have hwait : (if 0 < e.waitMs then [Event.wait e.waitMs] else [])
      = if e.waitMs = 0 then [] else [.wait e.waitMs] := by
    by_cases h : e.waitMs = 0
    · simp [h]
    · simp [h, Nat.pos_of_ne_zero h]
  simp only [entryTrace, sendCmd, sendByte, send_eq_transmission, hwait]

theorem flatMap_entryTrace_tailEntries (cfg : Config) (orient : BitVec 2) :
    cfg.tailEntries.flatMap (entryTrace cfg orient)
      = transmission 8 cfg.cmdSlpout false ++ [.wait 120] ++ transmission 8 cfg.cmdDispon false ++ [.wait 20] := by
  simp [Config.tailEntries, entryTrace_eq_transmissions]

/-- Settles O33: each entry's trace in the rule's form, and the tail of the table last. -/
theorem initSendsThePulseAndTheTable : Obligations.InitSendsThePulseAndTheTable := by
  intro orient s
  constructor
  · rw [exec_eq_trace, traceOf, traceInit, funext (entryTrace_eq_transmissions s.cfg orient)]
    rfl
  · intro hwf
    obtain ⟨-, -, htail, -, -⟩ := s.cfg.wf_iff.mp hwf
    refine ⟨resetPulse ++ (Config.tableHead s.cfg.initTable).flatMap (entryTrace s.cfg orient), ?_⟩
    conv_lhs => rw [traceInit, Config.initTable_eq_of_tailOk htail]
    simp only [List.flatMap_append, flatMap_entryTrace_tailEntries, List.append_assoc]

/-! ### The orientation (R81, R84, R85) -/

/-- The trace of an entry without the placeholder does not depend on the orientation. -/
theorem entryTrace_orient_irrelevant (cfg : Config) {e : InitEntry} (h : Config.entryHasOrient e = false)
    (orient orient' : BitVec 2) : entryTrace cfg orient e = entryTrace cfg orient' e := by
  have hsubst : ∀ p ∈ e.params, substParam cfg orient p = substParam cfg orient' p := by
    intro p hp
    cases p with
    | lit b => rfl
    | orient => simp [Config.entryHasOrient, hp] at h
  have hparams := List.flatMap_congr fun p hp => congrArg sendByte (hsubst p hp)
  rw [entryTrace, entryTrace, hparams]

theorem flatMap_entryTrace_orient_irrelevant (cfg : Config) {es : List InitEntry}
    (h : ∀ e ∈ es, Config.entryHasOrient e = false) (orient orient' : BitVec 2) :
    es.flatMap (entryTrace cfg orient) = es.flatMap (entryTrace cfg orient') :=
  List.flatMap_congr fun e he => entryTrace_orient_irrelevant cfg (h e he) orient orient'

theorem entryTrace_madctlEntry (cfg : Config) (orient : BitVec 2) :
    entryTrace cfg orient cfg.madctlEntry = sendCmd cfg.cmdMadctl ++ sendByte (madctlParam cfg orient) := by
  simp [entryTrace, Config.madctlEntry, substParam]

/-- Settles O34: the table splits at its orientation entry, and no other entry's trace depends on the orientation. -/
theorem orientationChangesOneByteOfInit : Obligations.OrientationChangesOneByteOfInit := by
  intro cfg hwf
  obtain ⟨horient, -⟩ := cfg.wf_iff.mp hwf
  obtain ⟨as, bs, ht, has, hbs⟩ := Config.split_at_madctlEntry (of_decide_eq_true horient)
  refine ⟨⟨resetPulse ++ as.flatMap (entryTrace cfg 0) ++ sendCmd cfg.cmdMadctl, bs.flatMap (entryTrace cfg 0),
    fun orient => ?_⟩, rfl, rfl, rfl, rfl⟩
  rw [traceInit, ht, List.flatMap_append, List.flatMap_cons, entryTrace_madctlEntry,
    flatMap_entryTrace_orient_irrelevant cfg has orient 0, flatMap_entryTrace_orient_irrelevant cfg hbs orient 0]
  simp only [List.append_assoc]

/-! ### The panel after INIT (R87) -/

/-- INIT ends at rest from any levels: the pulse sets RST_N and the first entry sets CS_N, whatever they were. -/
theorem atRest_afterAll_traceInit {cfg : Config} (h : cfg.initTable ≠ []) (orient : BitVec 2) (p : Pins) :
    (p.afterAll (traceInit cfg orient)).atRest := by
  obtain ⟨e, es, ht⟩ := List.exists_cons_of_ne_nil h
  have hforget : p.afterAll (traceInit cfg orient)
      = ({ p with csN := true, rstN := true } : Pins).afterAll (traceInit cfg orient) := by
    rw [traceInit, ht]
    rfl
  rw [hforget]
  exact endsAtRest_traceInit cfg orient _ ⟨rfl, rfl⟩

theorem Panel.initDone_addressable (n : Nat) (p : Panel) : (p.initDone n).addressable = true := by
  unfold initDone
  split
  · assumption
  · rfl

/-- R87 at the last event of INIT. -/
theorem settleInit_addressable {s : State} (hinit : s.curIsInit = true) (hp : s.pending = []) :
    s.settleInit.panel.addressable = true := by
  simp [State.settleInit, hinit, hp, Panel.initDone_addressable]

/-- The run of an accepted INIT: one step to accept it, one for each event, and the panel settled at the last. -/
theorem runSteps_init (s : State) (orient : BitVec 2) (hp : s.pending = [])
    (hh : s.host = hostProgram [encode (.init orient)]) :
    runSteps ((traceInit s.cfg orient).length + 1) s
      = .next ({ State.performAll (traceInit s.cfg orient)
          { s with cur := encode (.init orient), pending := traceInit s.cfg orient, host := [] } with
          pending := [] } : State).settleInit := by
  have hstep := step_of_legal s _ _ (hostProgram_rstBlk _ s hh) hp (s.offered_cons _ _ hh)
    (decodeOfEncodeIsIdentity (.init orient))
  rw [hh] at hstep
  rw [runSteps_succ _ _ _ hstep]
  exact run_pending [] _ _ _ rfl rfl

/-- Settles O35: the last event settles INIT, and its trace ends at rest from any levels. -/
theorem initLeavesThePanelAddressable : Obligations.InitLeavesThePanelAddressable := by
  intro s orient hwf hp hh
  obtain ⟨hcs, hrst⟩ := atRest_afterAll_traceInit (Config.initTable_ne_nil hwf) orient s.pins
  rw [Nat.add_comm]
  refine ⟨_, runSteps_init s orient hp hh, by simp, settleInit_addressable ?_ rfl, by simpa using hcs,
    by simpa using hrst⟩
  simp [State.curIsInit, encode, Instr.op]

end Sys2Proof.Machine
end

section
/-! PROOFS. The statements of 42_address_window.md: a window set as seven transmissions (R89, R90), the eleven bytes
read from it (R93), and the cells the pixel words after it are written to (R92). -/

namespace Sys2Proof.Machine

/-! ### The trace of a window set (R89, R90) -/

theorem window_eq_windowTransmissions (cfg : Config) (xs ys xe ye : Int) :
    window cfg xs ys xe ye = windowTransmissions cfg (low16 xs) (low16 ys) (low16 xe) (low16 ye) := by
  simp only [window, windowTransmissions, sendCmd, sendHalf, send_eq_transmission]

theorem traceSetWindow_eq_windowTransmissions (cfg : Config) (xs ys xe ye : Half) :
    traceSetWindow cfg xs ys xe ye = windowTransmissions cfg xs ys xe ye := by
  simp only [traceSetWindow, window_eq_windowTransmissions, low16_zext16]

theorem window_length (cfg : Config) (xs ys xe ye : Int) : (window cfg xs ys xe ye).length = 285 := by
  simp [window]

/-- Settles O38: `low16` of a bound is its residue, and each `send` is the listed transmission. -/
theorem windowIsSevenTransmissions : Obligations.WindowIsSevenTransmissions := fun cfg xs ys xe ye =>
  ⟨window_eq_windowTransmissions cfg xs ys xe ye, window_length cfg xs ys xe ye⟩

/-! ### The bytes of a window set (R37, R93) -/

theorem afterAll_send_csN (w : Nat) (v : BitVec w) (d : Bool) (p : Pins) : (p.afterAll (send w v d)).csN = true := by
  simp [send, Pins.afterAll_append, Pins.after, Pins.set]

theorem byteStream_sendCmd_append (c : Byte) (p : Pins) (rest : List Event) (hcs : p.csN = true) :
    byteStream p (sendCmd c ++ rest) = .cmd c :: byteStream (p.afterAll (sendCmd c)) rest := by
  rw [sendCmd, byteStream_send_append _ _ _ _ _ hcs, bytesOfFrame_byte]
  rfl

theorem afterAll_addressSet_csN (c : Byte) (lo hi : Half) (p : Pins) :
    (p.afterAll (addressSet c lo hi)).csN = true := by
  rw [addressSet, Pins.afterAll_append]
  exact afterAll_send_csN _ _ _ _

/-- An address set is its command byte and the four bytes of its bounds. -/
theorem byteStream_addressSet_append (c : Byte) (lo hi : Half) (p : Pins) (rest : List Event) (hcs : p.csN = true) :
    byteStream p (addressSet c lo hi ++ rest)
      = .cmd c :: (halfBytes lo ++ halfBytes hi ++ byteStream (p.afterAll (addressSet c lo hi)) rest) := by
  have hcmd : (p.afterAll (sendCmd c)).csN = true := afterAll_send_csN _ _ _ _
  have hlo : ((p.afterAll (sendCmd c)).afterAll (sendHalf lo)).csN = true := afterAll_send_csN _ _ _ _
  rw [addressSet, List.append_assoc, List.append_assoc, byteStream_sendCmd_append _ _ _ hcs,
    byteStream_sendHalf_append _ _ _ hcmd, byteStream_sendHalf_append _ _ _ hlo]
  simp only [Pins.afterAll_append, List.append_assoc]

theorem byteStream_traceSetWindow (cfg : Config) (xs ys xe ye : Half) (p : Pins) (hcs : p.csN = true) :
    byteStream p (traceSetWindow cfg xs ys xe ye) = windowBytes cfg xs ys xe ye := by
  rw [traceSetWindow, window_eq_addressSets, List.append_assoc, byteStream_addressSet_append _ _ _ _ _ hcs,
    byteStream_addressSet_append _ _ _ _ _ (afterAll_addressSet_csN _ _ _ _), ← List.append_nil (sendCmd _),
    byteStream_sendCmd_append _ _ _ (afterAll_addressSet_csN _ _ _ _)]
  simp [windowBytes]

/-- Settles O39. -/
theorem setWindowSendsItsBounds : Obligations.SetWindowSendsItsBounds := by
  refine ⟨fun xs ys xe ye s => ?_, fun cfg xs ys xe ye p hcs => ?_⟩
  · rw [← traceSetWindow_eq_windowTransmissions]
    exact exec_eq_trace (.setWindow xs ys xe ye) s
  · rw [← traceSetWindow_eq_windowTransmissions]
    exact byteStream_traceSetWindow cfg xs ys xe ye p hcs

/-! ### The cells of a window, row by row (R92) -/

/-- The cell of word `k` of a window that begins at (x1, y1) and ends in column x2, with words counted from 0. -/
def windowCell (x1 y1 x2 : Half) (k : Nat) : Nat × Nat :=
  (x1.toNat + k % extent x1 x2, y1.toNat + k / extent x1 x2)

/-- The word of a window that goes to cell (u, v). -/
def wordOfCell (x1 y1 x2 : Half) (u v : Nat) : Nat := (v - y1.toNat) * extent x1 x2 + (u - x1.toNat)

theorem windowCell_injective (x1 y1 x2 : Half) : Function.Injective (windowCell x1 y1 x2) := by
  intro i j h
  obtain ⟨hcol, hrow⟩ := Prod.ext_iff.mp h
  rw [← Nat.div_add_mod i (extent x1 x2), ← Nat.div_add_mod j (extent x1 x2), Nat.add_left_cancel hcol,
    Nat.add_left_cancel hrow]

/-- The words a window has go to cells of the window. -/
theorem inBounds_windowCell {x1 y1 x2 y2 : Half} {k u v : Nat} (hv : boundsValid x1 y1 x2 y2)
    (hk : k < windowSize x1 y1 x2 y2) (hcell : windowCell x1 y1 x2 k = (u, v)) : inBounds x1 y1 x2 y2 u v := by
  obtain ⟨rfl, rfl⟩ := Prod.mk.inj hcell
  obtain ⟨hx, -, hy, -⟩ := hv
  have hcol : k % extent x1 x2 < x2.toNat - x1.toNat + 1 := Nat.mod_lt k (extent_pos x1 x2)
  have hrow : k / extent x1 x2 < y2.toNat - y1.toNat + 1 := Nat.div_lt_of_lt_mul hk
  unfold inBounds
  generalize k % extent x1 x2 = col at hcol ⊢
  generalize k / extent x1 x2 = row at hrow ⊢
  omega

theorem windowCell_wordOfCell {x1 y1 x2 y2 : Half} {u v : Nat} (hin : inBounds x1 y1 x2 y2 u v) :
    windowCell x1 y1 x2 (wordOfCell x1 y1 x2 u v) = (u, v) := by
  obtain ⟨hu, hu', hv, -⟩ := hin
  have hcol : u - x1.toNat < extent x1 x2 := by unfold extent; omega
  obtain ⟨hdiv, hmod⟩ := (Nat.div_mod_unique (a := wordOfCell x1 y1 x2 u v) (extent_pos x1 x2)).mpr
    ⟨by rw [wordOfCell, Nat.mul_comm, Nat.add_comm], hcol⟩
  rw [windowCell, hdiv, hmod, Nat.add_sub_cancel' hu, Nat.add_sub_cancel' hv]

theorem wordOfCell_lt {x1 y1 x2 y2 : Half} {u v : Nat} (hin : inBounds x1 y1 x2 y2 u v) :
    wordOfCell x1 y1 x2 u v < windowSize x1 y1 x2 y2 := by
  obtain ⟨hu, hu', hv, hv'⟩ := hin
  have hcol : u - x1.toNat < extent x1 x2 := by unfold extent; omega
  have hrow : v - y1.toNat + 1 ≤ extent y1 y2 := by unfold extent; omega
  calc wordOfCell x1 y1 x2 u v < (v - y1.toNat + 1) * extent x1 x2 := by rw [wordOfCell, Nat.succ_mul]; omega
    _ ≤ windowSize x1 y1 x2 y2 := by rw [windowSize, Nat.mul_comm (extent x1 x2)]; exact Nat.mul_le_mul_right _ hrow

/-- A cell of a valid window is a cell of the panel. -/
theorem inBounds.onScreen {x1 y1 x2 y2 : Half} {u v : Nat} (hin : inBounds x1 y1 x2 y2 u v)
    (hv : boundsValid x1 y1 x2 y2) : u < Config.panelW ∧ v < Config.panelH := by
  obtain ⟨-, hu, -, hv'⟩ := hin
  obtain ⟨-, hx2, -, hy2⟩ := hv
  simp only [Config.panelW, Config.panelH]
  omega

/-! ### What the words of a window do to the cells (R41, R92) -/

namespace Panel

/-- Moving the pointer changes no cell. -/
@[simp] theorem advancePointer_readCell (p : Panel) (u v : Nat) : p.advancePointer.readCell u v = p.readCell u v := by
  unfold advancePointer; split <;> rfl

/-- A write to a cell of the panel is read back there. -/
theorem readCell_write_same (p : Panel) (x y : Nat) (w : Half) (hxy : x < Config.panelW ∧ y < Config.panelH) :
    ({ p with mem := p.mem.writeCell x y w } : Panel).readCell x y = .ok w := by
  simp [readCell, hxy]

/-- A write to a cell of the panel leaves every other cell as it was. -/
theorem readCell_write_other (p : Panel) (x y u v : Nat) (w : Half) (hx : x < Config.panelW) (hne : (u, v) ≠ (x, y)) :
    ({ p with mem := p.mem.writeCell x y w } : Panel).readCell u v = p.readCell u v := by
  unfold readCell
  by_cases huv : u < Config.panelW ∧ v < Config.panelH
  · rw [if_pos huv, if_pos huv, Memory.readCell_writeCell_other _ _ _ _ _ _ hx huv.1 hne]
  · rw [if_neg huv, if_neg huv]

variable {x1 y1 x2 y2 : Half} {k u v : Nat} {p : Panel}

/-- Word `k` of a window is written to its cell. -/
theorem AtWord.pixel_readCell_same (h : AtWord x1 y1 x2 y2 k p) (hv : boundsValid x1 y1 x2 y2)
    (hk : k < windowSize x1 y1 x2 y2) (c : Half) (hcell : windowCell x1 y1 x2 k = (u, v)) :
    (p.pixel c).readCell u v = .ok c := by
  have hon := (inBounds_windowCell hv hk hcell).onScreen hv
  obtain ⟨rfl, rfl⟩ := Prod.mk.inj hcell
  rw [h.pixel_eq hv hk, advancePointer_readCell, h.px, h.py]
  exact readCell_write_same p _ _ c hon

/-- Word `k` of a window is written to no other cell. -/
theorem AtWord.pixel_readCell_other (h : AtWord x1 y1 x2 y2 k p) (hv : boundsValid x1 y1 x2 y2)
    (hk : k < windowSize x1 y1 x2 y2) (c : Half) (hcell : windowCell x1 y1 x2 k ≠ (u, v)) :
    (p.pixel c).readCell u v = p.readCell u v := by
  rw [h.pixel_eq hv hk, advancePointer_readCell, h.px, h.py]
  exact readCell_write_other p _ _ u v c ((inBounds_windowCell hv hk rfl).onScreen hv).1 hcell.symm

/-- A cell that is the cell of none of the words keeps what it held. -/
theorem AtWord.pixels_readCell_other (hv : boundsValid x1 y1 x2 y2) (cs : List Half) (h : AtWord x1 y1 x2 y2 k p)
    (hk : k + cs.length ≤ windowSize x1 y1 x2 y2)
    (hcell : ∀ i, k ≤ i → i < k + cs.length → windowCell x1 y1 x2 i ≠ (u, v)) :
    (p.pixels cs).readCell u v = p.readCell u v := by
  induction cs generalizing k p with
  | nil => rfl
  | cons c cs ih =>
    rw [List.length_cons] at hk hcell
    have hk' : k < windowSize x1 y1 x2 y2 := by omega
    rw [pixels_cons, ih (h.pixel hv hk' c) (by omega) fun i hi hi' => hcell i (by omega) (by omega)]
    exact h.pixel_readCell_other hv hk' c (hcell k le_rfl (by omega))

/-- Each word is read back from its cell after all of them: the words after it go to other cells. -/
theorem AtWord.pixels_readCell (hv : boundsValid x1 y1 x2 y2) (cs : List Half) (h : AtWord x1 y1 x2 y2 k p)
    (hk : k + cs.length ≤ windowSize x1 y1 x2 y2) (i : Nat) (hi : i < cs.length)
    (hcell : windowCell x1 y1 x2 (k + i) = (u, v)) : (p.pixels cs).readCell u v = .ok cs[i] := by
  induction cs generalizing k p i with
  | nil => exact absurd hi (Nat.not_lt_zero i)
  | cons c cs ih =>
    rw [List.length_cons] at hk hi
    have hk' : k < windowSize x1 y1 x2 y2 := by omega
    have hnext := h.pixel hv hk' c
    rw [pixels_cons]
    cases i with
    | zero =>
      have hlater : ∀ j, k + 1 ≤ j → j < k + 1 + cs.length → windowCell x1 y1 x2 j ≠ (u, v) :=
        fun j hj _ => hcell ▸ (windowCell_injective x1 y1 x2).ne (by omega)
      rw [hnext.pixels_readCell_other hv cs (by omega) hlater]
      exact h.pixel_readCell_same hv hk' c hcell
    | succ i => exact ih hnext (by omega) i (by omega) (by rwa [Nat.add_assoc, Nat.add_comm 1])

end Panel

/-- Settles O40: every cell of the window is the cell of one of the words, and every other cell of none. -/
theorem pixelStreamCoversTheWindow : Obligations.PixelStreamCoversTheWindow := by
  intro s x1 y1 x2 y2 cs h hv hlen u v
  have hsize : cs.length = windowSize x1 y1 x2 y2 := hlen
  have hopen := Panel.atWord_openWindow x1 y1 x2 y2 s.panel
  rw [performAll_pixelStream_panel h _ _ _ _ hv]
  constructor
  · intro hin
    have hword : wordOfCell x1 y1 x2 u v < cs.length := hsize ▸ wordOfCell_lt hin
    have hcell : windowCell x1 y1 x2 (0 + wordOfCell x1 y1 x2 u v) = (u, v) := by
      rw [Nat.zero_add, windowCell_wordOfCell hin]
    exact ⟨_, List.getElem?_eq_getElem hword, hopen.pixels_readCell hv cs (by omega) _ hword hcell⟩
  · intro hout
    exact hopen.pixels_readCell_other hv cs (by omega) fun i _ hi hcell =>
      hout (inBounds_windowCell hv (by omega) hcell)

end Sys2Proof.Machine
end

section
/-! PROOFS. The statements of 43_rasterizer.md about the traces of the drawing commands and of CLEAR: each point as a
one-pixel window and a colour word (R94, R95, R98, R100, R103, R105). -/

namespace Sys2Proof.Machine

/-! ### Points on the wire (R94) -/

theorem pointTrace_eq_transmissions (cfg : Config) (c : Half) (p : Int × Int) :
    pointTrace cfg c p
      = windowTransmissions cfg (low16 p.1) (low16 p.2) (low16 p.1) (low16 p.2) ++ transmission 16 c true := by
  rw [pointTrace, window_eq_windowTransmissions, sendHalf, send_eq_transmission]

theorem pointTrace_length (cfg : Config) (c : Half) (p : Int × Int) : (pointTrace cfg c p).length = 336 := by
  simp [pointTrace, window_length]

theorem pointsTrace_eq_transmissions (cfg : Config) (pts : List (Int × Int)) (c : Half) :
    pointsTrace cfg pts c
      = pts.flatMap (fun p => windowTransmissions cfg (low16 p.1) (low16 p.2) (low16 p.1) (low16 p.2)
          ++ transmission 16 c true) :=
  List.flatMap_congr fun p _ => pointTrace_eq_transmissions cfg c p

theorem pointsTrace_append (cfg : Config) (l1 l2 : List (Int × Int)) (c : Half) :
    pointsTrace cfg (l1 ++ l2) c = pointsTrace cfg l1 c ++ pointsTrace cfg l2 c :=
  List.flatMap_append

theorem pointsTrace_cons (cfg : Config) (p : Int × Int) (l : List (Int × Int)) (c : Half) :
    pointsTrace cfg (p :: l) c = pointTrace cfg c p ++ pointsTrace cfg l c :=
  List.flatMap_cons

theorem pointsTrace_singleton (cfg : Config) (p : Int × Int) (c : Half) :
    pointsTrace cfg [p] c = pointTrace cfg c p :=
  List.flatMap_singleton _ p

/-- Settles O43: the point in transmissions, and the field of a coordinate read signed goes out as the field. -/
theorem drawPointSendsWindowAndColour : Obligations.DrawPointSendsWindowAndColour := by
  refine ⟨fun cfg x y c => ⟨?_, pointTrace_length cfg c (x, y)⟩, fun x y c s => ?_⟩
  · rw [pointTrace, sendHalf, send_eq_transmission]
  · rw [exec_eq_trace, traceOf, traceDrawPoint, pointTrace_eq_transmissions, low16_sext16, low16_sext16]

/-! ### Lines and rectangles (R98, R100) -/

/-- Settles O46. -/
theorem drawLineSendsItsPoints : Obligations.DrawLineSendsItsPoints := by
  intro x1 y1 x2 y2 c s
  rw [exec_eq_trace, traceOf, traceDrawLine, pointsTrace_eq_transmissions]
  rfl

/-- From a point to itself both deltas are 0 in every mode, and the loop plots once. -/
theorem linePoints_degenerate (cmp : LineCmp) (neg : LineNegDy) (x y : Int) :
    linePoints cmp neg x y x y = [(x, y)] := by
  have hdist : lineDistance neg x y x y = 0 := by simp [lineDistance, lineDx, lineDy]
  simp [linePoints, hdist, lineLoop]

/-- Settles O52. -/
theorem degenerateLineIsThePoint : Obligations.DegenerateLineIsThePoint := by
  intro x y c s
  rw [exec_eq_trace, exec_eq_trace, traceOf, traceOf, traceDrawLine, cfgLine, linePoints_degenerate,
    pointsTrace_singleton, traceDrawPoint]

/-- Settles O53: the trace of a list of points in four parts is the traces of the parts. -/
theorem drawRectIsFourLines : Obligations.DrawRectIsFourLines := by
  intro x1 y1 x2 y2 c s
  refine ⟨_, _, _, _, exec_eq_trace _ s, exec_eq_trace _ s, exec_eq_trace _ s, exec_eq_trace _ s, ?_⟩
  simp only [exec_eq_trace, traceOf, traceDrawRect, traceDrawLine, rectPoints, pointsTrace_append]

/-! ### Circles (R101 to R103) -/

theorem circlePasses_neg {r : Int} (hr : r < 0) : circlePasses r = [] := by
  rw [circlePasses, circlePassesFrom, if_neg (by omega)]

theorem circlePoints_zero (x0 y0 : Int) : circlePoints x0 y0 0 = List.replicate 8 (x0, y0) := by
  have hpasses : circlePasses 0 = [(0, 0)] := by decide
  simp [circlePoints, hpasses, octants, List.replicate_succ]

/-- Settles O55. -/
theorem drawCircleSendsItsOctants : Obligations.DrawCircleSendsItsOctants := by
  refine ⟨fun x0 y0 r c s => ?_, fun r => circlePasses_neg, circlePoints_zero⟩
  rw [exec_eq_trace, traceOf, traceDrawCircle, pointsTrace_eq_transmissions]
  rfl

/-! ### CLEAR (R105) -/

theorem repeatTrace_eq_flatten (n : Nat) (t : List Event) : repeatTrace n t = (List.replicate n t).flatten := by
  induction n with
  | zero => rfl
  | succ n ih => rw [repeatTrace, ih, List.replicate_succ, List.flatten_cons]

/-- CLEAR is the full window of R90 and one word for each of its cells. -/
theorem traceClear_eq (cfg : Config) (c : Half) :
    traceClear cfg c = traceSetWindow cfg 0 0 239 239 ++ (List.replicate 57600 c).flatMap sendHalf := by
  rw [traceClear, repeatTrace_eq_flatten, List.flatMap_def, List.map_replicate]
  rfl

/-- Settles O59. -/
theorem clearSendsTheFullScreen : Obligations.ClearSendsTheFullScreen := by
  intro c s
  rw [exec_eq_trace, traceOf, traceClear_eq, traceSetWindow_eq_windowTransmissions, List.flatMap_def,
    List.map_replicate, sendHalf, send_eq_transmission]

end Sys2Proof.Machine
end

section
/-! PROOFS. The statements of 43_rasterizer.md about panel content: which cells the points of a draw and the words of
CLEAR are written to (R95, R105, R107). -/

namespace Sys2Proof.Machine

/-! ### One point, and lists of points (R95, R107) -/

theorem pointTrace_eq_pixelStream (cfg : Config) (c : Half) (p : Int × Int) :
    pointTrace cfg c p
      = traceSetWindow cfg (low16 p.1) (low16 p.2) (low16 p.1) (low16 p.2) ++ [c].flatMap sendHalf := by
  rw [pointTrace, window_eq_windowTransmissions, traceSetWindow_eq_windowTransmissions, List.flatMap_singleton]

theorem contentReady_pointTrace {s : State} (h : contentReady s) (c : Half) (p : Int × Int) :
    contentReady (s.performAll (pointTrace s.cfg c p)) := by
  rw [pointTrace, performAll_append]
  exact contentReady_sendHalf (contentReady_window h _ _ _ _) c

/-- A point of the panel goes out as itself. -/
theorem onPanel.low16_toNat {p : Int × Int} (hp : onPanel p) :
    ((low16 p.1).toNat : Int) = p.1 ∧ ((low16 p.2).toNat : Int) = p.2 := by
  obtain ⟨hx, hx', hy, hy'⟩ := hp
  rw [Machine.low16_toNat, Machine.low16_toNat]
  omega

/-- The one cell of the window of a point of the panel is the point's. -/
theorem onPanel.inBounds_iff {p : Int × Int} (hp : onPanel p) (u v : Nat) :
    inBounds (low16 p.1) (low16 p.2) (low16 p.1) (low16 p.2) u v ↔ ((u : Int), (v : Int)) = p := by
  obtain ⟨hx, hy⟩ := hp.low16_toNat
  rw [Prod.ext_iff, inBounds]
  omega

theorem onPanel.boundsValid {p : Int × Int} (hp : onPanel p) :
    boundsValid (low16 p.1) (low16 p.2) (low16 p.1) (low16 p.2) := by
  obtain ⟨hx, hy⟩ := hp.low16_toNat
  unfold onPanel at hp
  unfold Machine.boundsValid
  omega

/-- A point of the panel is written to its cell and no other: R92 for a window of one cell. -/
theorem performAll_pointTrace_readCell {s : State} (h : contentReady s) (c : Half) {p : Int × Int} (hp : onPanel p)
    (u v : Nat) :
    (s.performAll (pointTrace s.cfg c p)).panel.readCell u v
      = if ((u : Int), (v : Int)) = p then .ok c else s.panel.readCell u v := by
  obtain ⟨hin, hout⟩ := pixelStreamCoversTheWindow s _ _ _ _ [c] h hp.boundsValid (by simp) u v
  rw [hp.inBounds_iff] at hin hout
  rw [pointTrace_eq_pixelStream]
  split
  next huv =>
    obtain ⟨c', hc', hread⟩ := hin huv
    rw [hread, List.mem_singleton.mp (List.mem_of_getElem? hc')]
  next huv => exact hout huv

theorem contentReady_pointsTrace {s : State} (h : contentReady s) (l : List (Int × Int)) (c : Half) :
    contentReady (s.performAll (pointsTrace s.cfg l c)) := by
  induction l generalizing s with
  | nil => exact h
  | cons p l ih =>
    have htail := ih (contentReady_pointTrace h c p)
    rwa [performAll_cfg, ← performAll_append, ← pointsTrace_cons] at htail

/-- A list of points of the panel, all drawn in one colour, is written to the cells of the list and no others. -/
theorem performAll_pointsTrace_readCell {s : State} (h : contentReady s) (c : Half) {l : List (Int × Int)}
    (hl : ∀ p ∈ l, onPanel p) (u v : Nat) :
    (s.performAll (pointsTrace s.cfg l c)).panel.readCell u v
      = if ((u : Int), (v : Int)) ∈ l then .ok c else s.panel.readCell u v := by
  induction l generalizing s with
  | nil => simp [pointsTrace]
  | cons p l ih =>
    obtain ⟨hp, hl⟩ := List.forall_mem_cons.mp hl
    have htail := ih (contentReady_pointTrace h c p) hl
    rw [performAll_cfg, ← performAll_append, ← pointsTrace_cons, performAll_pointTrace_readCell h c hp] at htail
    rw [htail]
    by_cases hmem : ((u : Int), (v : Int)) ∈ l <;> simp [hmem]

/-- Settles O45: the second draw is read in the cells of its list, and the first one shows through in the others. -/
theorem lastWriteWins : Obligations.LastWriteWins := by
  intro s l1 l2 c1 c2 h hl1 hl2 u v
  have hread := performAll_pointsTrace_readCell (contentReady_pointsTrace h l1 c1) c2 hl2 u v
  rw [performAll_cfg, ← performAll_append, performAll_pointsTrace_readCell h c1 hl1] at hread
  rw [hread]
  exact ⟨fun h2 => if_pos h2, fun h2 h1 => by rw [if_neg h2, if_pos h1], fun h2 h1 => by rw [if_neg h2, if_neg h1]⟩

/-! ### Runs of an accepted command (R25, R26) -/

/-- What performing a trace makes of the panel depends on panel, pins, configuration and free values only. -/
theorem performAll_panel_congr (t : List Event) {s s' : State} (hcfg : s.cfg = s'.cfg) (hpins : s.pins = s'.pins)
    (hpanel : s.panel = s'.panel) (hfree : s.free = s'.free) : (s.performAll t).panel = (s'.performAll t).panel := by
  induction t generalizing s s' with
  | nil => exact hpanel
  | cons e t ih =>
    rw [performAll_cons, performAll_cons]
    refine ih (by simpa using hcfg) (by simp [hpins]) ?_ (by simp [hfree])
    cases e <;> simp [hcfg, hpins, hpanel, hfree]

theorem number_eq_init_iff (o : Op) : o.number = Op.init.number ↔ o = .init := by
  cases o <;> decide

theorem settleInit_of_not_init {s : State} (h : s.curIsInit = false) : s.settleInit = s := by
  simp [State.settleInit, h]

theorem curIsInit_encode {s : State} {i : Instr} (hcur : s.cur = encode i) (hop : i.op ≠ .init) :
    s.curIsInit = false := by
  rw [State.curIsInit, hcur, (inRow_encode i).fieldOp_eq, beq_eq_false_iff_ne]
  exact mt (number_eq_init_iff i.op).mp hop

/-- The run of an accepted command other than INIT: one step to accept it and one for each event, and what they make of
the panel. -/
theorem runSteps_command (s : State) (i : Instr) (hop : i.op ≠ .init) (hp : s.pending = [])
    (hh : s.host = hostProgram [encode i]) (hne : traceOf s.cfg i ≠ []) :
    ∃ t, runSteps ((traceOf s.cfg i).length + 1) s = .next t ∧ t.pending = [] ∧
      t.panel = (s.performAll (traceOf s.cfg i)).panel := by
  have hstep := step_of_legal s _ _ (hostProgram_rstBlk _ s hh) hp (s.offered_cons _ _ hh)
    (decodeOfEncodeIsIdentity i)
  obtain ⟨e, rest, htrace⟩ := List.exists_cons_of_ne_nil hne
  rw [htrace, hh] at hstep
  have hrun := run_pending [] e rest { s with cur := encode i, pending := e :: rest, host := [] } rfl rfl
  rw [settleInit_of_not_init (curIsInit_encode (by simp) hop)] at hrun
  rw [htrace, List.length_cons, runSteps_succ _ _ _ hstep]
  exact ⟨_, hrun, rfl, performAll_panel_congr _ rfl rfl rfl rfl⟩

/-! ### DRAW_POINT and CLEAR from their acceptance to their last event (R95, R105) -/

/-- An operand that is a coordinate of the panel is read as itself. -/
theorem sext16_of_lt {f : Half} (hf : f.toNat < 240) : sext16 f = (f.toNat : Int) :=
  BitVec.toInt_eq_toNat_of_lt (by omega)

/-- Settles O44: the run of the command performs the trace of its one point. -/
theorem drawPointWritesItsCellOnly : Obligations.DrawPointWritesItsCellOnly := by
  intro s x y c h hp hh hx hy
  have hlen : (traceOf s.cfg (.drawPoint x y c)).length = 336 := pointTrace_length ..
  obtain ⟨t, hrun, ht, hpanel⟩ := runSteps_command s (.drawPoint x y c) nofun hp hh
    (List.ne_nil_of_length_pos (by omega))
  rw [hlen] at hrun
  refine ⟨t, hrun, ht, fun u v => ?_⟩
  have hon : onPanel (sext16 x, sext16 y) := by
    simp only [onPanel, sext16_of_lt hx, sext16_of_lt hy]
    omega
  rw [hpanel, traceOf, traceDrawPoint, performAll_pointTrace_readCell h c hon, sext16_of_lt hx, sext16_of_lt hy]
  simp only [Prod.mk.injEq, Int.natCast_inj]

/-- Settles O60: the run of the command performs a full window and a word for each of its cells, which R92 covers. -/
theorem clearFillsEveryCell : Obligations.ClearFillsEveryCell := by
  intro s c h hp hh
  have hlen : (traceOf s.cfg (.clear c)).length = 2937885 := by
    simp [traceOf, traceClear, window_length, Config.panelW, Config.panelH]
  obtain ⟨t, hrun, ht, hpanel⟩ := runSteps_command s (.clear c) nofun hp hh
    (List.ne_nil_of_length_pos (by omega))
  rw [hlen] at hrun
  refine ⟨t, hrun, ht, fun u v hu hv => ?_⟩
  obtain ⟨hin, -⟩ := pixelStreamCoversTheWindow s 0 0 239 239 (List.replicate 57600 c) h
    ⟨by decide, by decide, by decide, by decide⟩ (by rw [List.length_replicate]; rfl) u v
  obtain ⟨c', hc', hread⟩ := hin ⟨Nat.zero_le u, Nat.le_of_lt_succ hu, Nat.zero_le v, Nat.le_of_lt_succ hv⟩
  rw [hpanel, traceOf, traceClear_eq, hread, List.eq_of_mem_replicate (List.mem_of_getElem? hc')]

end Sys2Proof.Machine
end

section
/-! PROOFS. The statements of 43_rasterizer.md about the points of the line engine (R96, R98, R99) and of the four edges
of a rectangle (R100). -/

namespace Sys2Proof.Machine

/-! ### The loop of R96, one coordinate at a time -/

/-- One step of a coordinate: the coordinate and its error term. -/
def axisStep (cmp : LineCmp) (delta dist inc : Int) (a : Int × Int) : Int × Int :=
  (advance cmp (a.2 + delta) dist a.1 inc, reduceErr cmp (a.2 + delta) dist)

/-- The coordinate that starts at `c`, after `k` steps. -/
def axisAt (cmp : LineCmp) (delta dist inc c : Int) (k : Nat) : Int := ((axisStep cmp delta dist inc)^[k] (c, 0)).1

/-- The loop is its two coordinates, each on its own. -/
theorem lineLoop_eq_map (cmp : LineCmp) (dx dy incx incy dist : Int) (n : Nat) (x y xerr yerr : Int) :
    lineLoop cmp dx dy incx incy dist n x y xerr yerr
      = (List.range n).map (fun k =>
          (((axisStep cmp dx dist incx)^[k] (x, xerr)).1, ((axisStep cmp dy dist incy)^[k] (y, yerr)).1)) := by
  induction n generalizing x y xerr yerr with
  | zero => rfl
  | succ n ih =>
    rw [lineLoop, ih, List.range_succ_eq_map, List.map_cons, List.map_map]
    rfl

/-- The point of a line at position `k`. -/
def linePoint (cmp : LineCmp) (neg : LineNegDy) (x1 y1 x2 y2 : Int) (k : Nat) : Int × Int :=
  (axisAt cmp (lineDx x1 x2) (lineDistance neg x1 y1 x2 y2) (unitStep (x2 - x1)) x1 k,
   axisAt cmp (lineDy neg (lineDx x1 x2) y1 y2) (lineDistance neg x1 y1 x2 y2) (unitStep (y2 - y1)) y1 k)

theorem linePoints_eq_map (cmp : LineCmp) (neg : LineNegDy) (x1 y1 x2 y2 : Int) :
    linePoints cmp neg x1 y1 x2 y2
      = (List.range ((lineDistance neg x1 y1 x2 y2).toNat + 1)).map (linePoint cmp neg x1 y1 x2 y2) :=
  lineLoop_eq_map ..

theorem getElem?_linePoints {cmp : LineCmp} {neg : LineNegDy} {x1 y1 x2 y2 : Int} {k : Nat}
    (hk : k ≤ (lineDistance neg x1 y1 x2 y2).toNat) :
    (linePoints cmp neg x1 y1 x2 y2)[k]? = some (linePoint cmp neg x1 y1 x2 y2 k) := by
  rw [linePoints_eq_map, List.getElem?_map, List.getElem?_range (by omega), Option.map_some]

/-! ### The deltas and the distance (R96) -/

theorem lineDx_eq_natAbs (x1 x2 : Int) : lineDx x1 x2 = ((x2 - x1).natAbs : Int) := by
  unfold lineDx
  split <;> omega

/-- Where the negative-dy defect does not apply, `dy` is |y2 − y1|. -/
theorem lineDy_eq_natAbs {neg : LineNegDy} {y1 y2 : Int} (h : y1 ≤ y2 ∨ neg = .vertical) (dx : Int) :
    lineDy neg dx y1 y2 = ((y2 - y1).natAbs : Int) := by
  unfold lineDy
  split
  · omega
  · obtain h | rfl := h
    · omega
    · dsimp only
      omega

theorem lineDistance_eq_natAbs {neg : LineNegDy} {y1 y2 : Int} (h : y1 ≤ y2 ∨ neg = .vertical) (x1 x2 : Int) :
    lineDistance neg x1 y1 x2 y2 = ((max (x2 - x1).natAbs (y2 - y1).natAbs : Nat) : Int) := by
  rw [lineDistance, lineDx_eq_natAbs, lineDy_eq_natAbs h, Nat.cast_max]

theorem lineDistance_nonneg (neg : LineNegDy) (x1 y1 x2 y2 : Int) : 0 ≤ lineDistance neg x1 y1 x2 y2 := by
  rw [lineDistance, lineDx_eq_natAbs]
  omega

theorem unitStep_mul_natAbs (d : Int) : unitStep d * (d.natAbs : Int) = d := by
  unfold unitStep
  split
  · omega
  · split <;> omega

theorem unitStep_ne_zero {d : Int} (hd : d ≠ 0) : unitStep d ≠ 0 := fun h => by
  simpa [h, hd.symm] using unitStep_mul_natAbs d

/-- Settles O47. -/
theorem lineStartsAtItsFirstPoint : Obligations.LineStartsAtItsFirstPoint := by
  intro cmp neg x1 y1 x2 y2
  have hdist := lineDistance_nonneg neg x1 y1 x2 y2
  refine ⟨hdist, ?_, ?_⟩
  · rw [linePoints_eq_map, List.length_map, List.length_range]
    omega
  · rw [List.head?_eq_getElem?, getElem?_linePoints (Nat.zero_le _)]
    rfl

/-! ### A coordinate in closed form -/

@[simp] theorem axisAt_zero (cmp : LineCmp) (delta dist inc c : Int) : axisAt cmp delta dist inc c 0 = c := rfl

/-- A coordinate with unit step 0 stays, in every mode. -/
theorem axisAt_inc_zero (cmp : LineCmp) (delta dist c : Int) (k : Nat) : axisAt cmp delta dist 0 c k = c := by
  induction k with
  | zero => rfl
  | succ k ih =>
    rw [axisAt, Function.iterate_succ_apply', axisStep, advance, Int.add_zero, ite_self]
    exact ih

/-- Adding at most the divisor leaves the quotient, or makes it one more (compare `div_mod_succ`). -/
theorem div_mod_add {delta dist : Nat} (h : delta ≤ dist) (hpos : 0 < dist) (m : Nat) :
    (m % dist + delta < dist ∧
      (m + delta) / dist = m / dist ∧ (m + delta) % dist = m % dist + delta) ∨
    (dist ≤ m % dist + delta ∧
      (m + delta) / dist = m / dist + 1 ∧ (m + delta) % dist = m % dist + delta - dist) := by
  have hlt := Nat.mod_lt m hpos
  have hm := Nat.mod_add_div m dist
  rcases Nat.lt_or_ge (m % dist + delta) dist with hstay | hmove
  · exact .inl ⟨hstay, (Nat.div_mod_unique hpos).mpr ⟨by omega, hstay⟩⟩
  · exact .inr ⟨hmove, (Nat.div_mod_unique hpos).mpr ⟨by rw [Nat.mul_succ]; omega, by omega⟩⟩

/-- Under GE: quotient and remainder of k·delta by the distance are the steps taken and the error term. -/
theorem axisStep_iterate_ge {delta dist : Nat} (h : delta ≤ dist) (hpos : 0 < dist) (inc c : Int) (k : Nat) :
    (axisStep .ge delta dist inc)^[k] (c, 0)
      = (c + inc * ((k * delta / dist : Nat) : Int), ((k * delta % dist : Nat) : Int)) := by
  induction k with
  | zero => simp
  | succ k ih =>
    rw [Function.iterate_succ_apply', ih, Nat.succ_mul]
    simp only [axisStep, advance, reduceErr, exceeds, decide_eq_true_eq]
    rcases div_mod_add h hpos (k * delta) with ⟨hstay, hq, hr⟩ | ⟨hmove, hq, hr⟩
    · rw [if_neg (by omega), if_neg (by omega), hq, hr, Nat.cast_add]
    · rw [if_pos (by omega), if_pos (by omega), hq, hr, Nat.cast_sub hmove, Nat.cast_add, Nat.cast_add, Nat.cast_one,
        mul_add_one, add_assoc]

theorem axisAt_ge {delta dist : Nat} (h : delta ≤ dist) (hpos : 0 < dist) (inc c : Int) (k : Nat) :
    axisAt .ge delta dist inc c k = c + inc * ((k * delta / dist : Nat) : Int) := by
  rw [axisAt, axisStep_iterate_ge h hpos]

/-- Under GE the major coordinate moves at every step, also at distance 0. -/
theorem axisAt_ge_major (dist inc c : Int) (k : Nat) : axisAt .ge dist dist inc c k = c + inc * k := by
  have hstate : (axisStep .ge dist dist inc)^[k] (c, 0) = (c + inc * k, 0) := by
    induction k with
    | zero => simp
    | succ k ih =>
      rw [Function.iterate_succ_apply', ih]
      simp [axisStep, advance, reduceErr, exceeds, mul_add_one, add_assoc]
  rw [axisAt, hstate]

/-- Under GT the first step never moves a coordinate. -/
theorem axisAt_gt_one {delta dist : Int} (h : delta ≤ dist) (inc c : Int) : axisAt .gt delta dist inc c 1 = c := by
  simp [axisAt, axisStep, advance, exceeds, h]

/-- Under GT the major coordinate moves at every step but the first. -/
theorem axisAt_gt_major_succ {dist : Int} (hpos : 0 < dist) (inc c : Int) (k : Nat) :
    axisAt .gt dist dist inc c (k + 1) = c + inc * k := by
  have hstate : (axisStep .gt dist dist inc)^[k + 1] (c, 0) = (c + inc * k, dist) := by
    induction k with
    | zero => simp [axisStep, advance, reduceErr, exceeds]
    | succ k ih =>
      rw [Function.iterate_succ_apply', ih]
      simp [axisStep, advance, reduceErr, exceeds, hpos, mul_add_one, add_assoc]
  rw [axisAt, hstate]

/-- Under GT the major coordinate does not get to its end in as many steps as the distance. -/
theorem axisAt_gt_major_ne_last {d : Int} (hd : d ≠ 0) (c : Int) {k : Nat} (hk : k ≤ d.natAbs) :
    axisAt .gt d.natAbs d.natAbs (unitStep d) c k ≠ c + d := by
  cases k with
  | zero =>
    rw [axisAt_zero]
    omega
  | succ k =>
    intro hlast
    rw [axisAt_gt_major_succ (by omega), add_right_inj] at hlast
    have hsteps : (k : Int) = d.natAbs :=
      mul_left_cancel₀ (unitStep_ne_zero hd) (hlast.trans (unitStep_mul_natAbs d).symm)
    omega

/-! ### Lines without the defect, under GE (R96, R99) -/

/-- Settles O48: each coordinate in closed form. -/
theorem linePointsClosedForm : Obligations.LinePointsClosedForm := by
  intro neg x1 y1 x2 y2 k h hpos hk
  have hdist := lineDistance_eq_natAbs h x1 x2
  rw [getElem?_linePoints (by omega), linePoint, hdist, lineDx_eq_natAbs, lineDy_eq_natAbs h,
    axisAt_ge (le_max_left _ _) hpos, axisAt_ge (le_max_right _ _) hpos]

section

variable {neg : LineNegDy} {x1 y1 x2 y2 : Int} (h : y1 ≤ y2 ∨ neg = .vertical)
include h

/-- Along the x axis, where it is the major one, the line moves one unit a step. -/
theorem linePoint_ge_fst (hmajor : (y2 - y1).natAbs ≤ (x2 - x1).natAbs) (k : Nat) :
    (linePoint .ge neg x1 y1 x2 y2 k).1 = x1 + unitStep (x2 - x1) * k := by
  rw [linePoint, lineDistance_eq_natAbs h, max_eq_left hmajor, lineDx_eq_natAbs, axisAt_ge_major]

/-- Along the y axis, where it is the major one, the line moves one unit a step. -/
theorem linePoint_ge_snd (hmajor : (x2 - x1).natAbs ≤ (y2 - y1).natAbs) (k : Nat) :
    (linePoint .ge neg x1 y1 x2 y2 k).2 = y1 + unitStep (y2 - y1) * k := by
  rw [linePoint, lineDistance_eq_natAbs h, max_eq_right hmajor, lineDy_eq_natAbs h, axisAt_ge_major]

/-- At position `distance` the line is at its last point: the quotients of R96 are the deltas. -/
theorem linePoint_ge_last :
    linePoint .ge neg x1 y1 x2 y2 (max (x2 - x1).natAbs (y2 - y1).natAbs) = (x2, y2) := by
  rcases Nat.eq_zero_or_pos (max (x2 - x1).natAbs (y2 - y1).natAbs) with hzero | hpos
  · rw [hzero, linePoint, axisAt_zero, axisAt_zero, Prod.mk.injEq]
    omega
  · rw [linePoint, lineDistance_eq_natAbs h, lineDx_eq_natAbs, lineDy_eq_natAbs h,
      axisAt_ge (le_max_left _ _) hpos, axisAt_ge (le_max_right _ _) hpos, Nat.mul_div_cancel_left _ hpos,
      Nat.mul_div_cancel_left _ hpos, unitStep_mul_natAbs, unitStep_mul_natAbs, add_sub_cancel, add_sub_cancel]

theorem length_linePoints (cmp : LineCmp) :
    (linePoints cmp neg x1 y1 x2 y2).length = max (x2 - x1).natAbs (y2 - y1).natAbs + 1 := by
  rw [linePoints_eq_map, lineDistance_eq_natAbs h, List.length_map, List.length_range, Int.toNat_natCast]

/-- Two positions never hold one point: the major coordinate moves at every step. -/
theorem linePoint_ge_injective (hpos : 0 < max (x2 - x1).natAbs (y2 - y1).natAbs) :
    Function.Injective (linePoint .ge neg x1 y1 x2 y2) := by
  intro i j hij
  rcases le_total (y2 - y1).natAbs (x2 - x1).natAbs with hmajor | hmajor
  · have hfst := congrArg Prod.fst hij
    rw [linePoint_ge_fst h hmajor, linePoint_ge_fst h hmajor] at hfst
    have hinc := unitStep_ne_zero (d := x2 - x1) (by omega)
    exact Nat.cast_injective (mul_left_cancel₀ hinc (add_left_cancel hfst))
  · have hsnd := congrArg Prod.snd hij
    rw [linePoint_ge_snd h hmajor, linePoint_ge_snd h hmajor] at hsnd
    have hinc := unitStep_ne_zero (d := y2 - y1) (by omega)
    exact Nat.cast_injective (mul_left_cancel₀ hinc (add_left_cancel hsnd))

theorem nodup_linePoints_ge : (linePoints .ge neg x1 y1 x2 y2).Nodup := by
  rw [linePoints_eq_map, lineDistance_eq_natAbs h, Int.toNat_natCast]
  rcases Nat.eq_zero_or_pos (max (x2 - x1).natAbs (y2 - y1).natAbs) with hzero | hpos
  · rw [hzero]
    exact List.nodup_singleton _
  · exact List.nodup_range.map (linePoint_ge_injective h hpos)

theorem getLast?_linePoints_ge : (linePoints .ge neg x1 y1 x2 y2).getLast? = some (x2, y2) := by
  have hdist := lineDistance_eq_natAbs h x1 x2
  rw [List.getLast?_eq_getElem?, length_linePoints h, Nat.add_sub_cancel, getElem?_linePoints (by omega),
    linePoint_ge_last h]

end

/-- Settles O49: the major coordinate moves one unit at every step. -/
theorem lineReachesItsLastPoint : Obligations.LineReachesItsLastPoint := by
  intro neg x1 y1 x2 y2 h
  refine ⟨length_linePoints h .ge, getLast?_linePoints_ge h, nodup_linePoints_ge h, fun k p q hp hq => ?_⟩
  have hlen := length_linePoints h .ge (x1 := x1) (x2 := x2)
  have hdist := lineDistance_eq_natAbs h x1 x2
  have hk : k + 1 < (linePoints .ge neg x1 y1 x2 y2).length := (List.getElem?_eq_some_iff.mp hq).1
  rw [getElem?_linePoints (by omega)] at hp hq
  obtain rfl := Option.some.inj hp
  obtain rfl := Option.some.inj hq
  constructor
  · intro hmajor
    rw [linePoint_ge_fst h hmajor, linePoint_ge_fst h hmajor, Nat.cast_succ, mul_add_one, add_assoc]
  · intro hmajor
    rw [linePoint_ge_snd h hmajor, linePoint_ge_snd h hmajor, Nat.cast_succ, mul_add_one, add_assoc]

/-! ### Lines under GT (R99) -/

/-- Settles O50: the first step moves nothing, and the major coordinate never gets to its end. -/
theorem gtDropsTheLastPoint : Obligations.GtDropsTheLastPoint := by
  intro neg x1 y1 x2 y2 h hpos
  have hdx : lineDx x1 x2 ≤ lineDistance neg x1 y1 x2 y2 := le_max_left _ _
  have hdy : lineDy neg (lineDx x1 x2) y1 y2 ≤ lineDistance neg x1 y1 x2 y2 := le_max_right _ _
  refine ⟨getElem?_linePoints (Nat.zero_le _), ?_, ?_⟩
  · rw [getElem?_linePoints (by omega), linePoint, axisAt_gt_one hdx, axisAt_gt_one hdy]
  · rw [linePoints_eq_map, List.mem_map]
    rintro ⟨k, hk, hlast⟩
    obtain ⟨hx, hy⟩ := Prod.mk.inj hlast
    rw [List.mem_range, Nat.lt_succ_iff] at hk
    rw [lineDistance_eq_natAbs h] at hpos hk hx hy
    rw [lineDx_eq_natAbs] at hx
    rw [lineDy_eq_natAbs h] at hy
    rw [Int.toNat_natCast] at hk
    rw [Int.natCast_pos] at hpos
    rcases le_total (y2 - y1).natAbs (x2 - x1).natAbs with hmajor | hmajor
    · rw [max_eq_left hmajor] at hpos hk hx
      exact axisAt_gt_major_ne_last (Int.natAbs_pos.mp hpos) x1 hk (by rw [hx, add_sub_cancel])
    · rw [max_eq_right hmajor] at hpos hk hy
      exact axisAt_gt_major_ne_last (Int.natAbs_pos.mp hpos) y1 hk (by rw [hy, add_sub_cancel])

/-! ### The negative-dy defect (R98) -/

/-- Settles O51: both deltas are the distance, so both coordinates move at every step. -/
theorem negativeDyDefectRunsDiagonally : Obligations.NegativeDyDefectRunsDiagonally := by
  intro x1 y1 x2 y2 hy
  have hdy (dx : Int) : lineDy .horizontalMag dx y1 y2 = dx := if_neg (by omega)
  have hinc : unitStep (y2 - y1) = -1 := by
    rw [unitStep, if_neg (by omega), if_neg (by omega)]
  have hline : linePoints .ge .horizontalMag x1 y1 x2 y2
      = (List.range ((x2 - x1).natAbs + 1)).map
          (fun k : Nat => (x1 + unitStep (x2 - x1) * (k : Int), y1 - (k : Int))) := by
    have hdist : lineDistance .horizontalMag x1 y1 x2 y2 = lineDx x1 x2 := by rw [lineDistance, hdy, max_self]
    rw [linePoints_eq_map, hdist, lineDx_eq_natAbs, Int.toNat_natCast]
    refine List.map_congr_left fun k _ => ?_
    rw [linePoint, hdist, hdy, axisAt_ge_major, axisAt_ge_major, hinc, neg_one_mul]
    rfl
  refine ⟨hline, ?_⟩
  rintro rfl
  rw [hline]
  simp

end Sys2Proof.Machine
end

section
/-! PROOFS. The corners of a rectangle (R100): the two horizontal edges plot all four, and for y1 < y2 and x1 ≠ x2 the
two vertical edges plot them once more. -/

namespace Sys2Proof.Machine

/-- A line between two points of a column stays in it, in every mode. -/
theorem fst_of_mem_linePoints_column {cmp : LineCmp} {neg : LineNegDy} {x y1 y2 : Int} {p : Int × Int}
    (hp : p ∈ linePoints cmp neg x y1 x y2) : p.1 = x := by
  rw [linePoints_eq_map, List.mem_map] at hp
  obtain ⟨k, -, rfl⟩ := hp
  rw [linePoint, sub_self]
  exact axisAt_inc_zero ..

/-- A line between two points of a row stays in it, in every mode. -/
theorem snd_of_mem_linePoints_row {cmp : LineCmp} {neg : LineNegDy} {x1 x2 y : Int} {p : Int × Int}
    (hp : p ∈ linePoints cmp neg x1 y x2 y) : p.2 = y := by
  rw [linePoints_eq_map, List.mem_map] at hp
  obtain ⟨k, -, rfl⟩ := hp
  rw [linePoint, sub_self]
  exact axisAt_inc_zero ..

theorem count_linePoints_column_other {cmp : LineCmp} {neg : LineNegDy} {x y1 y2 u : Int} (hu : u ≠ x) (v : Int) :
    (linePoints cmp neg x y1 x y2).count (u, v) = 0 :=
  List.count_eq_zero.mpr fun hmem => hu (fst_of_mem_linePoints_column hmem)

theorem count_linePoints_row_other {cmp : LineCmp} {neg : LineNegDy} {x1 x2 y v : Int} (hv : v ≠ y) (u : Int) :
    (linePoints cmp neg x1 y x2 y).count (u, v) = 0 :=
  List.count_eq_zero.mpr fun hmem => hv (snd_of_mem_linePoints_row hmem)

theorem first_mem_linePoints (cmp : LineCmp) (neg : LineNegDy) (x1 y1 x2 y2 : Int) :
    (x1, y1) ∈ linePoints cmp neg x1 y1 x2 y2 :=
  List.mem_of_getElem? (getElem?_linePoints (Nat.zero_le _))

section

variable {neg : LineNegDy} {x1 y1 x2 y2 : Int} (h : y1 ≤ y2 ∨ neg = .vertical)
include h

theorem last_mem_linePoints_ge : (x2, y2) ∈ linePoints .ge neg x1 y1 x2 y2 :=
  List.mem_of_getLast? (getLast?_linePoints_ge h)

theorem count_first_linePoints_ge : (linePoints .ge neg x1 y1 x2 y2).count (x1, y1) = 1 :=
  List.count_eq_one_of_mem (nodup_linePoints_ge h) (first_mem_linePoints ..)

theorem count_last_linePoints_ge : (linePoints .ge neg x1 y1 x2 y2).count (x2, y2) = 1 :=
  List.count_eq_one_of_mem (nodup_linePoints_ge h) (last_mem_linePoints_ge h)

end

/-- Settles O54: a corner is an end of one horizontal and one vertical edge, and on neither of the other two. -/
theorem rectanglePlotsItsCorners : Obligations.RectanglePlotsItsCorners := by
  intro cfg x1 y1 x2 y2 hge
  simp only [rectPoints, cfgLine, hge, List.mem_append, List.count_append]
  have hrow (y : Int) : y ≤ y ∨ cfg.lineNegDy = .vertical := .inl le_rfl
  constructor
  · have hfirst (y : Int) := first_mem_linePoints .ge cfg.lineNegDy x1 y x2 y
    have hlast (y : Int) := last_mem_linePoints_ge (x1 := x1) (x2 := x2) (hrow y)
    simp only [hfirst, hlast, true_or, or_true, and_self]
  · intro hy hx
    have hcol : y1 ≤ y2 ∨ cfg.lineNegDy = .vertical := .inl hy.le
    simp only [count_first_linePoints_ge (hrow _), count_last_linePoints_ge (hrow _), count_first_linePoints_ge hcol,
      count_last_linePoints_ge hcol, count_linePoints_row_other hy.ne, count_linePoints_row_other hy.ne',
      count_linePoints_column_other hx, count_linePoints_column_other hx.symm, and_self]

end Sys2Proof.Machine
end

section
/-! PROOFS. The circle engine (R101, R102): its passes as integer square roots, the distance of its points from the
centre, and their symmetry (R104). -/

namespace Sys2Proof.Machine

/-! ### The other coordinate of a pass (R101, R104) -/

/-- `b` is ⌊√(r² − a²)⌋, said in squares. -/
structure IsCircleRoot (r a b : Int) : Prop where
  nonneg : 0 ≤ b
  inside : a * a + b * b ≤ r * r
  largest : r * r < a * a + (b + 1) * (b + 1)

theorem IsCircleRoot.eq_sqrt {r a : Nat} {b : Int} (h : IsCircleRoot r a b) : b = (Nat.sqrt (r * r - a * a) : Nat) := by
  obtain ⟨hb, hin, hmax⟩ := h
  obtain ⟨n, rfl⟩ := Int.eq_ofNat_of_zero_le hb
  norm_cast at hin hmax ⊢
  exact Nat.eq_sqrt.mpr ⟨by omega, by omega⟩

/-- At a = 0 the root is the radius, where the engine starts. -/
theorem isCircleRoot_radius {r : Int} (hr : 0 ≤ r) : IsCircleRoot r 0 r :=
  ⟨hr, by simp, by nlinarith⟩

/-- While the next `a` is still before the diagonal, the engine's step gives the root for it (R101): the new point is
outside only if a + 1 < b, and then the point below it is inside. -/
theorem IsCircleRoot.next {r a b : Int} (h : IsCircleRoot r a b) (ha : 0 ≤ a)
    (hnext : 2 * ((a + 1) * (a + 1)) ≤ r * r) : IsCircleRoot r (a + 1) (circleNextB r a b) := by
  obtain ⟨hb, hin, hmax⟩ := h
  unfold circleNextB
  split
  next hout =>
    have hab : a + 1 < b := by nlinarith
    exact ⟨by omega, by nlinarith, by simpa using hout⟩
  next hkeep => exact ⟨hb, by omega, by nlinarith⟩

/-- Once the next `a` is past the diagonal, the engine's step gives a `b` below it, and the loop ends. -/
theorem IsCircleRoot.next_lt {r a b : Int} (h : IsCircleRoot r a b) (ha : 0 ≤ a)
    (hnext : r * r < 2 * ((a + 1) * (a + 1))) : circleNextB r a b < a + 1 := by
  obtain ⟨hb, hin, hmax⟩ := h
  unfold circleNextB
  split
  next hout =>
    have hab : b < a + 2 := by nlinarith
    omega
  next hkeep => nlinarith

/-- A pass at or before the diagonal is made. -/
theorem IsCircleRoot.le {r a b : Int} (h : IsCircleRoot r a b) (hdiag : 2 * (a * a) ≤ r * r) : a ≤ b := by
  obtain ⟨hb, hin, hmax⟩ := h
  nlinarith

/-! ### The passes (R104) -/

/-- The first `a` past the diagonal, that is, the number of passes. -/
def passCount (r : Nat) : Nat := Nat.sqrt (r * r / 2) + 1

theorem lt_passCount_iff (r a : Nat) : a < passCount r ↔ 2 * (a * a) ≤ r * r := by
  rw [passCount, Nat.lt_succ_iff, Nat.le_sqrt]
  omega

/-- There is fuel for every pass. -/
theorem sqrt_half_sq_le (r : Nat) : Nat.sqrt (r * r / 2) ≤ r := by
  have hsqrt := Nat.sqrt_le_sqrt (Nat.div_le_self (r * r) 2)
  rwa [Nat.sqrt_eq] at hsqrt

/-- The pass at `a`. -/
def circlePass (r a : Nat) : Int × Int := ((a : Int), ((Nat.sqrt (r * r - a * a) : Nat) : Int))

theorem IsCircleRoot.eq_circlePass {r a : Nat} {b : Int} (h : IsCircleRoot r a b) :
    ((a : Int), b) = circlePass r a := by
  rw [circlePass, ← h.eq_sqrt]

theorem circlePassesFrom_of_lt {r a b : Int} (fuel : Nat) (h : b < a) : circlePassesFrom r fuel a b = [] := by
  cases fuel with
  | zero => rfl
  | succ fuel => rw [circlePassesFrom, if_neg (by omega)]

/-- A pass at or before the diagonal is made, and it is the one of the integer square root. -/
theorem circlePassesFrom_succ {r a : Nat} {b : Int} (h : IsCircleRoot r a b) (ha : a < passCount r) (fuel : Nat) :
    circlePassesFrom r (fuel + 1) a b
      = circlePass r a :: circlePassesFrom r fuel ((a + 1 : Nat) : Int) (circleNextB r a b) := by
  have hdiag := (lt_passCount_iff r a).mp ha
  rw [circlePassesFrom, if_pos (h.le (by norm_cast)), h.eq_circlePass, Nat.cast_succ]

/-- The loop from the pass at `a` on, with `m` passes after it and enough fuel for all of them. -/
theorem circlePassesFrom_eq {r : Nat} (m : Nat) {fuel a : Nat} {b : Int} (hcount : a + (m + 1) = passCount r)
    (hfuel : m ≤ fuel) (hroot : IsCircleRoot r a b) :
    circlePassesFrom r (fuel + 1) a b = (List.range' a (m + 1)).map (circlePass r) := by
  rw [circlePassesFrom_succ hroot (by omega), List.range'_succ, List.map_cons]
  congr 1
  induction m generalizing fuel a b with
  | zero =>
    have hpast := mt (lt_passCount_iff r (a + 1)).mpr (by omega)
    exact circlePassesFrom_of_lt _ (hroot.next_lt (Int.natCast_nonneg a) (by norm_cast; omega))
  | succ m ih =>
    obtain _ | fuel := fuel
    · exact absurd hfuel (Nat.not_succ_le_zero m)
    have hdiag := (lt_passCount_iff r (a + 1)).mp (by omega)
    have hnext : IsCircleRoot r ((a + 1 : Nat) : Int) (circleNextB r a b) :=
      hroot.next (Int.natCast_nonneg a) (by norm_cast)
    rw [circlePassesFrom_succ hnext (by omega), List.range'_succ, List.map_cons,
      ih (by omega) (by omega) hnext]

theorem circlePasses_eq (r : Nat) : circlePasses r = (List.range (passCount r)).map (circlePass r) := by
  rw [List.range_eq_range']
  exact circlePassesFrom_eq _ (Nat.zero_add _) (sqrt_half_sq_le r) (isCircleRoot_radius (Int.natCast_nonneg r))

/-- Settles O56: the loop keeps `b` the integer square root until `a` is past the diagonal. -/
theorem circlePassesAreIntegerSquareRoots : Obligations.CirclePassesAreIntegerSquareRoots := circlePasses_eq

/-- Every pass is one of a radius that is not negative, at the root of its `a`. -/
theorem isCircleRoot_of_mem_circlePasses {r a b : Int} (h : (a, b) ∈ circlePasses r) :
    0 ≤ r ∧ IsCircleRoot r a b := by
  rcases lt_or_ge r 0 with hneg | hr
  · simp [circlePasses_neg hneg] at h
  refine ⟨hr, ?_⟩
  obtain ⟨n, rfl⟩ := Int.eq_ofNat_of_zero_le hr
  rw [circlePasses_eq, List.mem_map] at h
  obtain ⟨k, hk, hpass⟩ := h
  obtain ⟨rfl, rfl⟩ := Prod.mk.inj hpass
  have hdiag := (lt_passCount_iff n k).mp (List.mem_range.mp hk)
  have hle := Nat.sqrt_le (n * n - k * k)
  have hlt := Nat.lt_succ_sqrt (n * n - k * k)
  generalize Nat.sqrt (n * n - k * k) = b at hle hlt ⊢
  rw [Nat.succ_eq_add_one] at hlt
  exact ⟨Int.natCast_nonneg b, by norm_cast; omega, by norm_cast; omega⟩

/-! ### The points (R102, R104) -/

/-- An offset from the centre of a point of the pass (a, b): the two coordinates in either order, with any signs. -/
def octantOffset (a b u v : Int) : Prop :=
  (u.natAbs = b.natAbs ∧ v.natAbs = a.natAbs) ∨ (u.natAbs = a.natAbs ∧ v.natAbs = b.natAbs)

theorem mem_octants_iff (x0 y0 a b u v : Int) : (x0 + u, y0 + v) ∈ octants x0 y0 a b ↔ octantOffset a b u v := by
  simp only [octants, octantOffset, Int.natAbs_eq_natAbs_iff, Int.sub_eq_add_neg, List.mem_cons, Prod.mk.injEq,
    add_right_inj, List.not_mem_nil, or_false, or_and_right]
  simp only [and_or_left, or_assoc]

theorem mem_circlePoints_iff (x0 y0 r u v : Int) :
    (x0 + u, y0 + v) ∈ circlePoints x0 y0 r ↔ ∃ a b, (a, b) ∈ circlePasses r ∧ octantOffset a b u v := by
  simp only [circlePoints, List.mem_flatMap, mem_octants_iff, Prod.exists]

theorem octantOffset.neg_fst {a b u v : Int} (h : octantOffset a b u v) : octantOffset a b (-u) v := by
  rwa [octantOffset, Int.natAbs_neg]

theorem octantOffset.neg_snd {a b u v : Int} (h : octantOffset a b u v) : octantOffset a b u (-v) := by
  rwa [octantOffset, Int.natAbs_neg]

theorem octantOffset.swap {a b u v : Int} (h : octantOffset a b u v) : octantOffset a b v u :=
  h.symm.imp And.symm And.symm

/-- The points of a pass are all at one distance from the centre. -/
theorem octantOffset.sq_add_sq {a b u v : Int} (h : octantOffset a b u v) : u * u + v * v = a * a + b * b := by
  simp only [octantOffset, Int.natAbs_eq_iff_mul_self_eq] at h
  omega

/-- Between the circles of radius r − 1 and r. -/
theorem IsCircleRoot.distance {r a b : Int} (h : IsCircleRoot r a b) (hr : 0 ≤ r) :
    a * a + b * b ≤ r * r ∧ (r = 0 ∨ (r - 1) * (r - 1) < a * a + b * b) := by
  obtain ⟨hb, hin, hmax⟩ := h
  refine ⟨hin, or_iff_not_imp_left.mpr fun hne => ?_⟩
  have hpos : 0 < r := by omega
  have hbr : b ≤ r := by nlinarith [mul_self_nonneg a]
  rcases hbr.lt_or_eq with hlt | rfl
  · nlinarith
  · nlinarith [mul_self_nonneg a]

/-- Settles O57: a point is a pass with signs and order, and the pass is a root. -/
theorem circlePointsLieOnTheCircle : Obligations.CirclePointsLieOnTheCircle := by
  intro x0 y0 r x y h
  rw [← add_sub_cancel x0 x, ← add_sub_cancel y0 y, mem_circlePoints_iff] at h
  obtain ⟨a, b, hpass, hoff⟩ := h
  obtain ⟨hr, hroot⟩ := isCircleRoot_of_mem_circlePasses hpass
  rw [hoff.sq_add_sq]
  exact hroot.distance hr

/-- Settles O58: signs and order of the offsets are free. -/
theorem circleIsSymmetric : Obligations.CircleIsSymmetric := by
  intro x0 y0 r u v h
  rw [Int.sub_eq_add_neg, Int.sub_eq_add_neg]
  simp only [mem_circlePoints_iff] at h ⊢
  obtain ⟨a, b, hpass, hoff⟩ := h
  exact ⟨⟨a, b, hpass, hoff.neg_fst⟩, ⟨a, b, hpass, hoff.neg_snd⟩, ⟨a, b, hpass, hoff.swap⟩⟩

end Sys2Proof.Machine
end

section
/-! PROOFS. The statements of 60_exceptions.md: that every step answers a next state (R115), what an illegal word does
(R113, R119), and that nothing of the panel reaches the block (R112). -/

namespace Sys2Proof.Machine

/-! ### Every step (R115) -/

/-- Settles O20: each branch of R117's priority ends in a next state. -/
theorem everyStepAnswersANextState : Obligations.EveryStepAnswersANextState := by
  intro s
  cases hr : s.rstBlk with
  | true => exact ⟨_, step_of_reset s hr⟩
  | false =>
    cases hp : s.pending with
    | cons e rest => exact ⟨_, step_of_pending s e rest hr hp⟩
    | nil =>
      cases ho : s.offered with
      | none => exact ⟨_, step_of_noOffer s hr hp ho⟩
      | some w =>
        cases hd : decode w with
        | legal i => exact ⟨_, step_of_legal s w i hr hp ho hd⟩
        | illegal why => exact ⟨_, step_of_illegal s w why hr hp ho hd⟩

/-! ### Illegal words (R113, R119) -/

/-- The step of an idle block whose port offers an illegal word: ILLEGAL and the port, nothing else (R113). -/
theorem step_of_illegal_cons {s : State} {w : CmdWord} {why : Illegal} {rest : List HostIn} (hp : s.pending = [])
    (hh : s.host = { rstBlk := false, offer := some w } :: rest) (hd : decode w = .illegal why) :
    step s = .next { s with illegal := true, host := rest } := by
  rw [step_of_illegal s w why (s.rstBlk_cons _ _ hh) hp (s.offered_cons _ _ hh) hd, hh, ← hp]
  rfl

/-- Settles O15: the frame is that of the step's one next state. -/
theorem illegalWordRaisesIllegal : Obligations.IllegalWordRaisesIllegal := by
  intro s w why rest hp hh hd
  refine ⟨_, step_of_illegal_cons hp hh hd, rfl, hp, ?_, rfl, rfl, rfl, rfl, rfl, fun hr => ?_⟩
  · simp [State.busy, hp]
  · exact (State.cmdReady_iff _).mpr ⟨hr, hp⟩

/-- Settles O16: ILLEGAL after a step is R20's, and setting it again is no change. -/
theorem illegalSticksUntilBlockReset : Obligations.IllegalSticksUntilBlockReset := by
  obtain ⟨-, -, hnext⟩ := statusIsBusyAndStickyIllegal
  refine ⟨fun s t hr hill h => ?_, fun s w why rest hill hp hh hd => ?_, fun s hr => ?_⟩
  · simp [hnext s t h, hr, hill]
  · rw [step_of_illegal_cons hp hh hd, ← hill]
  · exact ⟨_, step_of_reset s hr, rfl⟩

/-! ### The panel beside the block (R112) -/

/-- What an event does to the block does not depend on the panel. -/
theorem performEvent_setPanel (e : Event) (s : State) (p : Panel) :
    ∃ q, ({ s with panel := p } : State).performEvent e = { s.performEvent e with panel := q } := by
  cases e with
  | w k l => exact ⟨_, rfl⟩
  | wait ms => exact ⟨_, rfl⟩

theorem settleInit_of_initEnd {s : State} (h : (s.curIsInit && s.pending.isEmpty) = true) :
    s.settleInit = { s with panel := s.panel.initDone s.free, free := s.free + 1 } := if_pos h

theorem settleInit_of_not_initEnd {s : State} (h : (s.curIsInit && s.pending.isEmpty) = false) : s.settleInit = s :=
  if_neg (ne_true_of_eq_false h)

/-- Whether INIT has ended is read off the block, and its end changes the panel and the free values only. -/
theorem settleInit_setPanel (s : State) (p : Panel) :
    ∃ q, ({ s with panel := p } : State).settleInit = { s.settleInit with panel := q } := by
  cases hend : s.curIsInit && s.pending.isEmpty with
  | true => exact ⟨p.initDone s.free, by rw [settleInit_of_initEnd hend]; exact settleInit_of_initEnd hend⟩
  | false => exact ⟨p, by rw [settleInit_of_not_initEnd hend]; exact settleInit_of_not_initEnd hend⟩

theorem performNext_setPanel (e : Event) (rest : List Event) (s : State) (p : Panel) :
    ∃ q, ({ s with panel := p } : State).performNext e rest = { s.performNext e rest with panel := q } := by
  obtain ⟨q, hq⟩ := performEvent_setPanel e { s with pending := rest } p
  obtain ⟨r, hr⟩ := settleInit_setPanel (({ s with pending := rest } : State).performEvent e) q
  exact ⟨r, by rw [State.performNext, hq, hr]; rfl⟩

/-- A step from a state with another panel is the same step but for the panel it leaves. -/
theorem step_setPanel {s t : State} (h : step s = .next t) (p : Panel) :
    ∃ q, step { s with panel := p } = .next { t with panel := q } := by
  obtain ⟨hr, rfl⟩ | ⟨hr, e, rest, hp, rfl⟩ | ⟨hr, hp, ho, rfl⟩ | ⟨hr, hp, w, i, ho, hd, rfl⟩ |
    ⟨hr, hp, w, why, ho, hd, rfl⟩ := step_cases s t h
  · exact ⟨_, step_of_reset { s with panel := p } hr⟩
  · obtain ⟨q, hq⟩ := performNext_setPanel e rest s p
    exact ⟨q, by rw [step_of_pending { s with panel := p } e rest hr hp, hq]; rfl⟩
  · exact ⟨p, step_of_noOffer { s with panel := p } hr hp ho⟩
  · exact ⟨p, step_of_legal { s with panel := p } w i hr hp ho hd⟩
  · exact ⟨p, step_of_illegal { s with panel := p } w why hr hp ho hd⟩

/-- Settles O25: the second step is the first but for the panel. -/
theorem panelNeverReachesTheBlock : Obligations.PanelNeverReachesTheBlock := by
  intro s t t' p h h'
  obtain ⟨q, hq⟩ := step_setPanel h p
  rw [hq] at h'
  cases h'
  rfl

end Sys2Proof.Machine
end

section
/-! PROOFS. The statements of 70_reset_and_hazards.md about block reset and cut traces (R126, R127) and about the
number of events a command pends (R137). -/

namespace Sys2Proof.Machine

/-! ### Block reset (R126) -/

theorem State.nextEvent_of_reset {s : State} (h : s.rstBlk = true) : s.nextEvent = none := if_pos h

/-- Settles O18: the edge is `blockReset`, and an offered word waits at the port through it. -/
theorem blockResetSetsEveryResetValue : Obligations.BlockResetSetsEveryResetValue := by
  intro s hr
  refine ⟨by simp [State.cmdReady, hr], State.nextEvent_of_reset hr, _, step_of_reset s hr, rfl, rfl, rfl, rfl, rfl,
    fun w ho => State.portHold_offered s.blockReset w ho, fun hr' => ?_⟩
  exact (State.cmdReady_iff _).mpr ⟨hr', rfl⟩

/-! ### A trace cut by a block reset (R127, R131, U4) -/

/-- While the host drives nothing each step performs one event, so `k` steps perform the first `k` pending ones. -/
theorem runs_undriven (k : Nat) (rest : List HostIn) (s : State) (hk : k ≤ s.pending.length)
    (hh : s.host = List.replicate k { rstBlk := false, offer := none } ++ rest) :
    ∃ t, Runs k s (s.pending.take k) t ∧ t.host = rest ∧ t.pins = s.pins.afterAll (s.pending.take k) := by
  induction k generalizing s with
  | zero => exact ⟨s, .zero s, hh, rfl⟩
  | succ k ih =>
    obtain ⟨e, es, hp⟩ := List.exists_cons_of_length_pos (Nat.lt_of_lt_of_le k.succ_pos hk)
    rw [List.replicate_succ, List.cons_append] at hh
    have hr : s.rstBlk = false := s.rstBlk_cons _ _ hh
    have hhost : (s.performNext e es).portHold.host = List.replicate k { rstBlk := false, offer := none } ++ rest := by
      rw [State.portHold_host, State.performNext_host, hh]
      rfl
    obtain ⟨t, hrun, hthost, hpins⟩ := ih (s.performNext e es).portHold (by simpa [hp] using hk) hhost
    refine ⟨t, ?_, hthost, by simpa [hp] using hpins⟩
    simpa [State.nextEvent, hr, hp] using Runs.cons (step_of_pending s e es hr hp) hrun

/-- The step at which the host asserts block reset performs nothing. -/
theorem runs_blockReset {s : State} (h : s.rstBlk = true) : Runs 1 s [] s.blockReset.portHold := by
  simpa [State.nextEvent_of_reset h] using Runs.cons (step_of_reset s h) (.zero _)

/-- A block reset ends every claim that the panel is addressable (R131). -/
theorem Panel.blockReset_addressable (n : Nat) (csN : Bool) (p : Panel) :
    (p.blockReset n csN).addressable = false := by
  cases csN <;> rfl

/-- A block reset that finds the panel selected cuts a transmission, and the frame memory is lost (U4). -/
theorem Panel.frameLost_blockReset_selected (n : Nat) (p : Panel) : frameLost (p.blockReset n false) :=
  frameLost_of_mem_nil rfl

/-- Settles O19: `k` steps perform the first `k` events, and the reset step performs none. -/
theorem blockResetCutsTheTraceToAPrefix : Obligations.BlockResetCutsTheTraceToAPrefix := by
  intro s k hk hh
  obtain ⟨u, hrun, hhost, hpins⟩ := runs_undriven k _ s hk hh
  obtain ⟨hsteps, htrace⟩ := hrun.trans (runs_blockReset (u.rstBlk_cons _ _ hhost))
  rw [List.append_nil] at htrace
  refine ⟨htrace, _, hsteps, rfl, rfl, rfl, Panel.blockReset_addressable _ _ _, fun hcut => ?_⟩
  rw [← hpins] at hcut
  rw [State.portHold_panel, State.blockReset_panel, hcut]
  exact Panel.frameLost_blockReset_selected _ _

/-! ### The number of events of a command (R137) -/

theorem entryTrace_length (cfg : Config) (orient : BitVec 2) (e : InitEntry) :
    (entryTrace cfg orient e).length = 27 * (1 + e.params.length) + (if 0 < e.waitMs then 1 else 0) := by
  have hparams : (e.params.flatMap fun p => sendByte (substParam cfg orient p)).length = 27 * e.params.length := by
    simp [List.length_flatMap, Nat.mul_comm]
  have hwait : (if 0 < e.waitMs then [Event.wait e.waitMs] else []).length = if 0 < e.waitMs then 1 else 0 := by
    split <;> rfl
  rw [entryTrace, List.length_append, List.length_append, sendCmd_length, hparams, hwait, Nat.mul_add]

theorem traceInit_length (cfg : Config) (orient : BitVec 2) :
    (traceInit cfg orient).length = eventCount cfg (.init orient) := by
  rw [traceInit, List.length_append, List.length_flatMap, funext (entryTrace_length cfg orient)]
  rfl

theorem pointsTrace_length (cfg : Config) (l : List (Int × Int)) (c : Half) :
    (pointsTrace cfg l c).length = 336 * l.length := by
  simp [pointsTrace, List.length_flatMap, pointTrace_length, Nat.mul_comm]

/-- A line has one point more than its distance, in every mode (R96, R99). -/
theorem cfgLine_length (cfg : Config) (x1 y1 x2 y2 : Int) :
    (cfgLine cfg x1 y1 x2 y2).length = (lineDistance cfg.lineNegDy x1 y1 x2 y2).toNat + 1 := by
  rw [cfgLine, linePoints_eq_map, List.length_map, List.length_range]

theorem circlePoints_length (x0 y0 r : Int) : (circlePoints x0 y0 r).length = 8 * (circlePasses r).length := by
  simp [circlePoints, octants, List.length_flatMap, Nat.mul_comm]

theorem traceClear_length (cfg : Config) (c : Half) : (traceClear cfg c).length = 2937885 := by
  rw [traceClear, List.length_append, window_length, repeatTrace_length, sendHalf_length]
  rfl

/-- The length of every command's trace is the count of R137. -/
theorem traceOf_length (cfg : Config) (i : Instr) : (traceOf cfg i).length = eventCount cfg i := by
  cases i with
  | nop => rfl
  | sendCmd8 v => exact sendCmd_length v
  | sendData8 v => exact sendByte_length v
  | sendData16 v => exact sendHalf_length v
  | panelReset => rfl
  | delay ms => rfl
  | init orient => exact traceInit_length cfg orient
  | setWindow xs ys xe ye => exact window_length cfg _ _ _ _
  | drawPoint x y c => exact pointTrace_length cfg c _
  | drawLine x1 y1 x2 y2 c => rw [traceOf, traceDrawLine, pointsTrace_length, cfgLine_length, eventCount, lineEvents]
  | drawRect x1 y1 x2 y2 c =>
    simp only [traceOf, traceDrawRect, rectPoints, pointsTrace_length, List.length_append, cfgLine_length, eventCount,
      lineEvents, Nat.mul_add]
  | drawCircle x0 y0 r c =>
    rw [traceOf, traceDrawCircle, pointsTrace_length, circlePoints_length, eventCount, Nat.mul_assoc]
  | clear c => exact traceClear_length cfg c

/-- Settles O27: acceptance changes `pending` only, and what pends is the command's trace. -/
theorem everyCommandPendsItsEventsAndChangesNothingElse :
    Obligations.EveryCommandPendsItsEventsAndChangesNothingElse := by
  intro i s
  refine ⟨_, exec_eq_trace i s, traceOf_length s.cfg i, ?_, rfl, rfl, rfl, rfl, rfl, rfl, rfl, fun x y => rfl,
    fun a => rfl⟩
  rw [State.busy_iff, ← traceOf_length]
  exact List.length_eq_zero_iff.not.symm

end Sys2Proof.Machine
end

section
/-! PROOFS. What the panel makes of a transmission whatever is known of it, and the statements of
70_reset_and_hazards.md about a panel that is not addressable and about missed waits (R131, R133). -/

namespace Sys2Proof.Machine

/-! ### Any transmission to a deselected panel (R36) -/

@[simp] theorem Panel.frameStart_frame (n : Nat) (p : Panel) : (p.frameStart n).frame = [] := by
  unfold frameStart; split <;> rfl

/-- A transmission begins a frame and receives its bits; `performAll_send_panel` is the case with no wait owed. -/
theorem performAll_send_frameStart (w : Nat) (v : BitVec w) (d : Bool) (s : State) (hcs : s.pins.csN = true) :
    (s.performAll (send w v d)).panel
      = ({ s.panel.frameStart s.free with frame := sentSamples w v d w } : Panel).frameStop s.cfg
          (s.free + (3 * w + 2)) := by
  have hsel : (((s.pins.set .csN false).set .dc d).afterAll (sendBits w v w)).csN = false := by
    rw [afterAll_sendBits]; split <;> rfl
  simp [send, performAll_append, Panel.observe_deselect, hsel, performAll_sendBits_panel, Panel.observe_select, hcs]
  congr 1
  omega

/-- A command byte that is sent with no wait owed, and the wait after it. -/
theorem performAll_sendCmd_wait_panel {s : State} (hcs : s.pins.csN = true) (howed : s.panel.owed = 0) (c : Byte)
    (ms : Nat) :
    (s.performAll (sendCmd c ++ [.wait ms])).panel
      = (s.panel.unframed.receive s.cfg (s.free + 26) (.cmd c)).elapse ms := by
  have hcmd : (s.performAll (sendCmd c)).panel = s.panel.unframed.receive s.cfg (s.free + 26) (.cmd c) := by
    rw [sendCmd, performAll_send_panel _ _ _ _ hcs howed, Panel.frameStop]
    simp only [bytesOfFrame_byte]
    rfl
  rw [performAll_append, performAll_cons, performAll_nil, State.performEvent_wait_panel, hcmd]

theorem afterAll_sendCmd_wait_csN (c : Byte) (ms : Nat) (p : Pins) :
    (p.afterAll (sendCmd c ++ [.wait ms])).csN = true := by
  rw [Pins.afterAll_append]
  exact afterAll_send_csN _ _ _ _

/-! ### A panel that is not addressable (R88, R131, U12) -/

theorem Panel.addressable_iff (p : Panel) : p.addressable = true ↔ p.stage = .ready ∧ p.owed = 0 := by
  simp [addressable]

/-- The panel is not addressable, lists no byte of its frame memory, and its mode is unspecified. -/
structure Panel.NothingKnown (p : Panel) : Prop where
  unready : p.addressable = false
  noByte  : p.mem = []
  noMode  : p.mode = .unspecified

namespace Panel

theorem NothingKnown.frameLost {p : Panel} (h : NothingKnown p) : frameLost p := frameLost_of_mem_nil h.noByte

theorem nothingKnown_forget (n : Nat) {p : Panel} (h : p.addressable = false) : NothingKnown (p.forget n) :=
  ⟨h, rfl, rfl⟩

/-- Sleep-out and display-on oblige to a wait, so they make no panel addressable at once. -/
theorem NothingKnown.bringUp {p : Panel} (h : NothingKnown p) (cfg : Config) (n : Nat) (c : Byte) :
    NothingKnown (p.bringUp cfg n c) := by
  obtain ⟨hready, hmem, hmode⟩ := h
  unfold Panel.bringUp
  split
  · split
    · exact ⟨rfl, hmem, hmode⟩
    · exact ⟨by simp [addressable], hmem, hmode⟩
    · exact ⟨by simp [addressable], hmem, hmode⟩
    · exact ⟨hready, hmem, hmode⟩
    · exact ⟨hready, hmem, hmode⟩
  · split
    · split
      · exact ⟨rfl, rfl, rfl⟩
      · exact ⟨by simp [addressable], hmem, hmode⟩
      · exact ⟨by simp [addressable], hmem, hmode⟩
      · exact ⟨hready, hmem, hmode⟩
      · exact ⟨hready, hmem, hmode⟩
    · exact ⟨hready, hmem, hmode⟩

/-- Any byte leaves nothing known of a panel that is not addressable. -/
theorem nothingKnown_receive (cfg : Config) (n : Nat) (b : WireByte) {p : Panel} (h : p.addressable = false) :
    NothingKnown (p.receive cfg n b) := by
  rw [receive_unready cfg n b p h]
  cases b with
  | cmd c => exact (nothingKnown_forget n h).bringUp cfg n c
  | data d => exact nothingKnown_forget n h

theorem nothingKnown_receiveAll (cfg : Config) (n : Nat) (b : WireByte) (bs : List WireByte) {p : Panel}
    (h : p.addressable = false) : NothingKnown (p.receiveAll cfg n (b :: bs)) := by
  induction bs generalizing b p with
  | nil => exact nothingKnown_receive cfg n b h
  | cons b' bs ih => exact ih b' (nothingKnown_receive cfg n b h).unready

theorem frameStart_unready (n : Nat) {p : Panel} (h : p.addressable = false) : (p.frameStart n).addressable = false := by
  unfold frameStart
  split
  · exact h
  · rfl

end Panel

/-- Any transmission of at least one byte leaves nothing known of a panel that is not addressable (log entry 29). -/
theorem nothingKnown_send {s : State} (h : s.panel.addressable = false) (hcs : s.pins.csN = true) {w : Nat}
    {v : BitVec w} {d : Bool} {b : WireByte} {bs : List WireByte}
    (hbytes : bytesOfFrame (sentSamples w v d w) = some (b :: bs)) : (s.performAll (send w v d)).panel.NothingKnown := by
  rw [performAll_send_frameStart _ _ _ _ hcs, Panel.frameStop]
  simp only [hbytes]
  exact Panel.nothingKnown_receiveAll _ _ _ _ (Panel.frameStart_unready _ h)

theorem nothingKnown_sendHalf {s : State} (h : s.panel.addressable = false) (hcs : s.pins.csN = true) (v : Half) :
    (s.performAll (sendHalf v)).panel.NothingKnown :=
  nothingKnown_send h hcs (bytesOfFrame_half v)

/-! ### The wait that a command obliges the host to (R133) -/

/-- A panel at stage `g` is brought to stage `g'` by the command byte `c`, which obliges the host to a wait of `ms`
milliseconds. -/
def obliges (cfg : Config) (c : Byte) (g g' : Stage) (ms : Nat) : Prop :=
  ∀ (n : Nat) (p : Panel), p.stage = g → (p.bringUp cfg n c).stage = g' ∧ (p.bringUp cfg n c).owed = ms

theorem obliges_slpout_released (cfg : Config) : obliges cfg cfg.cmdSlpout .released .awake 120 := fun n p h => by
  simp [Panel.bringUp, h]

theorem obliges_slpout_ready (cfg : Config) : obliges cfg cfg.cmdSlpout .ready .ready 120 := fun n p h => by
  simp [Panel.bringUp, h]

theorem obliges_dispon_awake {cfg : Config} (hne : cfg.cmdSlpout ≠ cfg.cmdDispon) :
    obliges cfg cfg.cmdDispon .awake .ready 20 := fun n p h => by
  simp [Panel.bringUp, h, hne.symm]

theorem obliges_dispon_ready {cfg : Config} (hne : cfg.cmdSlpout ≠ cfg.cmdDispon) :
    obliges cfg cfg.cmdDispon .ready .ready 20 := fun n p h => by
  simp [Panel.bringUp, h, hne.symm]

/-- The panel is addressable again when as much was waited as the command obliges to, and not before. -/
theorem obliges.addressable_eq {s : State} {c : Byte} {ms : Nat} (hc : obliges s.cfg c .ready .ready ms)
    (h : contentReady s) (n : Nat) :
    (s.performAll (sendCmd c ++ [.wait n])).panel.addressable = decide (ms ≤ n) := by
  obtain ⟨hready, hcs, -, -⟩ := h
  obtain ⟨hstage, howed⟩ := s.panel.addressable_iff.mp hready
  have hcmd : (s.panel.unframed.commandByte s.cfg (s.free + 26) c).stage = .ready :=
    (Panel.applyByte_stage _ _ (.cmd c) _).trans hstage
  rw [performAll_sendCmd_wait_panel hcs howed, Panel.receive_ready _ _ _ s.panel.unframed hready]
  obtain ⟨hstage', howed'⟩ := hc (s.free + 26) _ hcmd
  rw [Bool.eq_iff_iff, Panel.addressable_iff, decide_eq_true_iff]
  simp only [Panel.elapse, hstage', howed', true_and, Nat.sub_eq_zero_iff_le]

/-- The first byte that is sent after a wait too short finds a panel that is not addressable. -/
theorem obliges.missed {s : State} {c : Byte} {ms : Nat} (hc : obliges s.cfg c .ready .ready ms)
    (h : contentReady s) {n : Nat} (hn : n < ms) (v : Byte) (d : Bool) :
    (s.performAll (sendCmd c ++ [.wait n] ++ send 8 v d)).panel.NothingKnown := by
  rw [performAll_append]
  refine nothingKnown_send ?_ ?_ (bytesOfFrame_byte v d)
  · rw [hc.addressable_eq h, decide_eq_false_iff_not]
    omega
  · rw [performAll_pins]
    exact afterAll_sendCmd_wait_csN c n s.pins

/-- Settles O37: both commands oblige to their waits, and a missed wait is a case of the last clause. -/
theorem missedWaitLosesThePanel : Obligations.MissedWaitLosesThePanel := by
  refine ⟨fun s n h hne => ?_, fun s hready hcs => ⟨fun v d => ?_, fun v => ?_⟩⟩
  · have hslp := obliges_slpout_ready s.cfg
    have hdsp := obliges_dispon_ready hne
    refine ⟨hslp.addressable_eq h n, hdsp.addressable_eq h n, fun hn v d => ?_, fun hn v d => ?_⟩
    · have hlost := hslp.missed h hn v d
      exact ⟨hlost.unready, hlost.frameLost⟩
    · have hlost := hdsp.missed h hn v d
      exact ⟨hlost.unready, hlost.frameLost⟩
  · have hlost := nothingKnown_send hready hcs (bytesOfFrame_byte v d)
    exact ⟨hlost.frameLost, hlost.noMode⟩
  · have hlost := nothingKnown_sendHalf hready hcs v
    exact ⟨hlost.frameLost, hlost.noMode⟩

end Sys2Proof.Machine
end

section
/-! PROOFS. Runs of a host program with what they make of the panel, and the boot built by the host (R129, R133). -/

namespace Sys2Proof.Machine

/-! ### The panel's side of a run -/

/-- What the panel's side of a run depends on is the same in both states. -/
structure SameWire (s t : State) : Prop where
  cfg   : s.cfg = t.cfg
  pins  : s.pins = t.pins
  panel : s.panel = t.panel
  free  : s.free = t.free

theorem SameWire.trans {s t u : State} (h : SameWire s t) (h' : SameWire t u) : SameWire s u :=
  ⟨h.cfg.trans h'.cfg, h.pins.trans h'.pins, h.panel.trans h'.panel, h.free.trans h'.free⟩

theorem SameWire.performAll {s t : State} (h : SameWire s t) (tr : List Event) :
    SameWire (s.performAll tr) (t.performAll tr) where
  cfg := by simpa using h.cfg
  pins := by simp [h.pins]
  panel := performAll_panel_congr tr h.cfg h.pins h.panel h.free
  free := by simp [h.free]

/-- The state `t` after `s` has had `tr` performed to its end: idle, the words `ws` still at the port, and on the
panel's side what performing `tr` makes of it. -/
structure WireAfter (s : State) (tr : List Event) (ws : List CmdWord) (t : State) : Prop where
  pending : t.pending = []
  host    : t.host = hostProgram ws
  wire    : SameWire t (s.performAll tr)

theorem WireAfter.trans {s t u : State} {tr tr' : List Event} {ws ws' : List CmdWord} (h : WireAfter s tr ws t)
    (h' : WireAfter t tr' ws' u) : WireAfter s (tr ++ tr') ws' u where
  pending := h'.pending
  host := h'.host
  wire := by rw [performAll_append]; exact h'.wire.trans (h.wire.performAll tr')

/-- The pending trace of a command other than INIT: `run_pending` with nothing to settle at its end. -/
theorem runSteps_pending_wire (ws : List CmdWord) (tr : List Event) (s : State) (hh : s.host = hostProgram ws)
    (hp : s.pending = tr) (hinit : s.curIsInit = false) :
    ∃ t, runSteps tr.length s = .next t ∧ WireAfter s tr ws t := by
  cases tr with
  | nil => exact ⟨s, rfl, hp, hh, rfl, rfl, rfl, rfl⟩
  | cons e rest =>
    have hrun := run_pending ws e rest s hh hp
    rw [settleInit_of_not_init (by simpa [State.curIsInit] using hinit)] at hrun
    exact ⟨_, hrun, rfl, by simpa using hh, rfl, rfl, rfl, rfl⟩

/-- The edge that accepts a command of a host program changes nothing of the panel's side. -/
theorem step_command_wire (i : Instr) (ws : List CmdWord) (s : State) (hp : s.pending = [])
    (hh : s.host = hostProgram (encode i :: ws)) :
    ∃ u, step s = .next u ∧ u.pending = traceOf s.cfg i ∧ u.host = hostProgram ws ∧ u.cur = encode i ∧
      SameWire u s := by
  have htail : s.host.tail = hostProgram ws := by rw [hh]; rfl
  exact ⟨_, step_of_legal s _ _ (hostProgram_rstBlk _ s hh) hp (s.offered_cons _ _ hh) (decodeOfEncodeIsIdentity i),
    rfl, htail, rfl, rfl, rfl, rfl, rfl⟩

/-- One command of a host program other than INIT, from its acceptance to its last event. -/
theorem runSteps_command_wire (i : Instr) (ws : List CmdWord) (s : State) (hop : i.op ≠ .init) (hp : s.pending = [])
    (hh : s.host = hostProgram (encode i :: ws)) :
    ∃ t, runSteps ((traceOf s.cfg i).length + 1) s = .next t ∧ WireAfter s (traceOf s.cfg i) ws t := by
  obtain ⟨u, hstep, hup, huhost, hucur, hwire⟩ := step_command_wire i ws s hp hh
  obtain ⟨t, hrun, ht⟩ := runSteps_pending_wire ws _ u huhost hup (curIsInit_encode hucur hop)
  rw [runSteps_succ _ _ _ hstep]
  exact ⟨t, hrun, ht.pending, ht.host, ht.wire.trans (hwire.performAll _)⟩

/-- A host program of commands other than INIT: `runs_hostProgram` for the panel's side. -/
theorem runSteps_program_wire (cmds : List Instr) (s : State) (hops : ∀ i ∈ cmds, i.op ≠ .init) (hp : s.pending = [])
    (hh : s.host = hostProgram (cmds.map encode)) :
    ∃ t, runSteps (programSteps s.cfg (cmds.map encode)) s = .next t ∧
      WireAfter s (cmds.flatMap (traceOf s.cfg)) [] t := by
  induction cmds generalizing s with
  | nil => exact ⟨s, rfl, hp, hh, rfl, rfl, rfl, rfl⟩
  | cons i cmds ih =>
    obtain ⟨hop, hops⟩ := List.forall_mem_cons.mp hops
    obtain ⟨u, hrun, hu⟩ := runSteps_command_wire i _ s hop hp hh
    obtain ⟨t, hrun', ht⟩ := ih u hops hu.pending hu.host
    have hcfg : u.cfg = s.cfg := by rw [hu.wire.cfg, performAll_cfg]
    rw [hcfg] at hrun' ht
    have hsteps : programSteps s.cfg ((i :: cmds).map encode)
        = ((traceOf s.cfg i).length + 1) + programSteps s.cfg (cmds.map encode) := by
      simp [programSteps, wordTrace, decodeOfEncodeIsIdentity i]
    rw [hsteps, runSteps_add _ _ _ _ hrun]
    exact ⟨t, hrun', hu.trans ht⟩

/-! ### The stages of a bring-up (R79, R129, R133) -/

/-- The bring-up has come to stage `g`, no wait is owed, and the panel is deselected. -/
structure AtStage (g : Stage) (s : State) : Prop where
  stage : s.panel.stage = g
  owed  : s.panel.owed = 0
  csN   : s.pins.csN = true

theorem AtStage.addressable {s : State} (h : AtStage .ready s) : s.panel.addressable = true :=
  s.panel.addressable_iff.mpr ⟨h.stage, h.owed⟩

theorem AtStage.unready {g : Stage} {s : State} (h : AtStage g s) (hg : g ≠ .ready) : s.panel.addressable = false := by
  simp [Panel.addressable, h.stage, hg]

/-- A write of RST_N is nothing to the panel's sampler. -/
theorem Panel.observe_set_rstN (cfg : Config) (n : Nat) (pins : Pins) (l : Bool) (p : Panel) :
    p.observe cfg n pins (pins.set .rstN l) = p.resetLine n pins (pins.set .rstN l) := by
  have hwire : wireEvent pins (pins.set .rstN l) = none := by
    cases hcs : pins.csN <;> cases hclk : pins.sclk <;> simp [wireEvent, hcs, hclk]
  rw [observe, hwire, sampled]

/-- The reset pulse waits long enough after each of its two writes, so it releases the panel from any stage (R79). -/
theorem performAll_resetPulse_panel {s : State} (hrst : s.pins.rstN = true) :
    (s.performAll resetPulse).panel = { s.panel.resetAsserted s.free with stage := .released, owed := 0 } := by
  simp [resetPulse, Panel.observe_set_rstN, Panel.resetLine, hrst, Panel.resetAsserted, Panel.resetReleased,
    Panel.elapse]

theorem atStage_resetPulse {s : State} (hcs : s.pins.csN = true) (hrst : s.pins.rstN = true) :
    AtStage .released (s.performAll resetPulse) := by
  have hpanel := performAll_resetPulse_panel hrst
  exact ⟨by rw [hpanel], by rw [hpanel], by simpa [resetPulse] using hcs⟩

/-- A command of the bring-up with its wait, sent before the panel is addressable. -/
theorem AtStage.command_wait {g g' : Stage} {s : State} {c : Byte} {ms n : Nat} (h : AtStage g s) (hg : g ≠ .ready)
    (hc : obliges s.cfg c g g' ms) (hn : ms ≤ n) : AtStage g' (s.performAll (sendCmd c ++ [.wait n])) := by
  obtain ⟨hstage, howed⟩ := hc (s.free + 26) (s.panel.unframed.forget (s.free + 26)) h.stage
  have hpanel := performAll_sendCmd_wait_panel h.csN h.owed c n
  rw [Panel.receive_unready _ _ _ s.panel.unframed (h.unready hg)] at hpanel
  refine ⟨by rw [hpanel]; exact hstage, ?_, by rw [performAll_pins]; exact afterAll_sendCmd_wait_csN c n s.pins⟩
  rw [hpanel]
  exact Nat.sub_eq_zero_of_le (howed.trans_le hn)

/-- The commands of a boot built by the host, without the orientation and the pixel format (log entry 10). -/
def bootCommands (cfg : Config) (n m : Half) : List Instr :=
  [.panelReset, .sendCmd8 cfg.cmdSlpout, .delay n, .sendCmd8 cfg.cmdDispon, .delay m]

theorem bootCommands_trace (cfg : Config) (n m : Half) :
    (bootCommands cfg n m).flatMap (traceOf cfg)
      = resetPulse ++ (sendCmd cfg.cmdSlpout ++ [.wait n.toNat]) ++ (sendCmd cfg.cmdDispon ++ [.wait m.toNat]) := by
  simp [bootCommands, traceOf, tracePanelReset, traceSendCmd8, traceDelay]

theorem bootCommands_no_init (cfg : Config) (n m : Half) : ∀ i ∈ bootCommands cfg n m, i.op ≠ .init := by
  simp [bootCommands, Instr.op]

/-- The boot's trace brings the panel from any stage to the last one. -/
theorem atStage_bootCommands {s : State} {n m : Half} (hne : s.cfg.cmdSlpout ≠ s.cfg.cmdDispon) (hn : 120 ≤ n.toNat)
    (hm : 20 ≤ m.toNat) (hcs : s.pins.csN = true) (hrst : s.pins.rstN = true) :
    AtStage .ready (s.performAll ((bootCommands s.cfg n m).flatMap (traceOf s.cfg))) := by
  rw [bootCommands_trace, performAll_append (resetPulse ++ _), performAll_append resetPulse]
  have hawake := (atStage_resetPulse hcs hrst).command_wait nofun (obliges_slpout_released _) hn
  have hready := hawake.command_wait nofun (obliges_dispon_awake (by simpa using hne)) hm
  simpa only [performAll_cfg] using hready

/-- Settles O36: the run of the program performs the boot's trace. -/
theorem hostBuiltBootLeavesThePanelAddressable : Obligations.HostBuiltBootLeavesThePanelAddressable := by
  intro s n m hne hn hm hp hcs hrst hh
  obtain ⟨t, hrun, ht⟩ := runSteps_program_wire (bootCommands s.cfg n m) s (bootCommands_no_init s.cfg n m) hp hh
  refine ⟨t, hrun, ?_⟩
  rw [ht.wire.panel]
  exact (atStage_bootCommands hne hn hm hcs hrst).addressable

end Sys2Proof.Machine
end
